-- ==== Sys2Proof/Word.lean ====
section
/-! DEFINITION. The word types of the MD5 Digest Engine (spec/00_scope.md R5, R9). -/

namespace Sys2Proof

/-- A message byte (R12). -/
abbrev Byte := BitVec 8

/-- The 32-bit unsigned word of the algorithm and of a register access (R5, R70). -/
abbrev Word := BitVec 32

/-- The 64-bit values SRC, LEN and the bit length (R31, R32, R35). -/
abbrev DWord := BitVec 64

end Sys2Proof
end

