-- ==== Sys2Proof/Config.lean ====
section
/-! DEFINITION. What the platform fixes (spec/00_scope.md R6, R7; spec/70_reset_and_hazards.md R246) and the
free value of spec/70_reset_and_hazards.md R245. -/

namespace Sys2Proof

/-- The parameters of the platform. State carries them, no step changes them, and every statement is about all of
their values.
* `addrW`: ADDR_W, the width of a message-memory address (R6), 1 to 64.
* `base`: BASE, the bus address of the register block (R7), a multiple of 64.
* `devices`: the message-memory ranges (first address, size in bytes) whose reads have a side effect (R246, U5). -/
structure Platform where
  addrW   : Nat
  base    : Nat
  devices : List (Nat × Nat)
  deriving DecidableEq, Repr

/-- The bounds R6 and R7 put on the parameters. -/
def Platform.wf (p : Platform) : Bool :=
  decide (1 ≤ p.addrW) && decide (p.addrW ≤ 64) && decide (p.base % 64 = 0)

/-- The platform of `State.reset`: ADDR_W = 32, BASE = 0, ordinary memory throughout.
DESIGN CHOICE (log 1), unsafe: the spec leaves the parameters open. -/
def Config.platform : Platform where
  addrW   := 32
  base    := 0
  devices := []

/-- The k-th free digest: what DIGEST0..3 hold after an operation whose message was written while it ran
(R245 "a fresh unconstrained value", U3 "for the four words together"). It has no body: nothing is known of it
(log 7). -/
opaque Config.freeDigest : Nat → BitVec 128

end Sys2Proof
end

