-- ==== Sys2Proof/Syntax.lean ====
section
/-! DEFINITION. The rows of spec/opcode_table.json as one inductive type, and the host access of
spec/30_encoding.md R70. -/

namespace Sys2Proof

/-- The direction of a host access (R70). -/
inductive Dir where
  | read
  | write
  deriving DecidableEq, Repr

/-- A host access as it reaches the bus, before anything is checked: the triple of R70 with the access width and the
absolute address that R51 and R55 speak of. For a read, `data` is what the bus carries towards the engine and has no
meaning (R84 writes it `-`). -/
structure Access where
  dir  : Dir
  bits : Nat
  addr : Nat
  data : Word
  deriving DecidableEq, Repr

/-- The grounds on which an access is refused (R81): its width is not 32 bits, its offset is not a multiple of 4, or it
lies outside the register block. -/
inductive AccessReject where
  | width
  | misaligned
  | outsideBlock
  deriving DecidableEq, Repr

/-- The formats of spec/opcode_table.json (R86). -/
inductive Format where
  | regRead
  | regWrite
  | cmd
  | seq
  | round
  deriving DecidableEq, Repr

/-- One constructor per row of spec/opcode_table.json.
Register rows that stand for several offsets carry the offset `off[5:0]`; every write carries its 32-bit `data` whole
(the bits a rule ignores too); the round rows carry their 6-bit round index. -/
inductive Instr where
  -- reg_read
  | rdId
  | rdCtrl
  | rdCmd
  | rdStatus
  | rdSrcLo
  | rdSrcHi
  | rdLenLo
  | rdLenHi
  | rdDigest0
  | rdDigest1
  | rdDigest2
  | rdDigest3
  | rdRsvd (off : BitVec 6)
  -- reg_write
  | wrId (data : Word)
  | wrCtrl (data : Word)
  | wrStatus (data : Word)
  | wrSrcLo (data : Word)
  | wrSrcHi (data : Word)
  | wrLenLo (data : Word)
  | wrLenHi (data : Word)
  | wrDigest (off : BitVec 6) (data : Word)
  | wrRsvd (off : BitVec 6) (data : Word)
  -- cmd: a write to CMD
  | nop (data : Word)
  | start (data : Word)
  | abort (data : Word)
  | cmdRsvd3 (data : Word)
  | cmdRsvd47 (data : Word)
  | cmdRsvd8F (data : Word)
  -- seq: an engine step, by the sequencer state
  | idle
  | load
  | round
  | feed
  -- round: an engine step in state ROUND, by the round index
  | roundF (i : BitVec 6)
  | roundG (i : BitVec 6)
  | roundH (i : BitVec 6)
  | roundI (i : BitVec 6)
  deriving DecidableEq, Repr

end Sys2Proof
end

