-- ==== Sys2Proof/WellFormed.lean ====
section
/-! DEFINITION. Well-formed instructions: the operand satisfies its row's match and mask
(spec/30_encoding.md R86; spec/opcode_table.json). -/

namespace Sys2Proof

/-- A row of the opcode table: its format, and the match and mask of its selector. -/
structure Row where
  fmt  : Format
  mtch : BitVec 6
  mask : BitVec 6
  deriving DecidableEq, Repr

/-- R86: a row applies when `(x & mask) = match` for its selector x. -/
def Row.applies (r : Row) (x : BitVec 6) : Bool := x &&& r.mask == r.mtch

/-- The row of spec/opcode_table.json that a constructor stands for, with the table's match and mask. -/
def Instr.row : Instr → Row
  | .rdId          => ⟨.regRead,  0x00, 0x3F⟩
  | .rdCtrl        => ⟨.regRead,  0x04, 0x3F⟩
  | .rdCmd         => ⟨.regRead,  0x08, 0x3F⟩
  | .rdStatus      => ⟨.regRead,  0x0C, 0x3F⟩
  | .rdSrcLo       => ⟨.regRead,  0x10, 0x3F⟩
  | .rdSrcHi       => ⟨.regRead,  0x14, 0x3F⟩
  | .rdLenLo       => ⟨.regRead,  0x18, 0x3F⟩
  | .rdLenHi       => ⟨.regRead,  0x1C, 0x3F⟩
  | .rdDigest0     => ⟨.regRead,  0x20, 0x3F⟩
  | .rdDigest1     => ⟨.regRead,  0x24, 0x3F⟩
  | .rdDigest2     => ⟨.regRead,  0x28, 0x3F⟩
  | .rdDigest3     => ⟨.regRead,  0x2C, 0x3F⟩
  | .rdRsvd _      => ⟨.regRead,  0x30, 0x33⟩
  | .wrId _        => ⟨.regWrite, 0x00, 0x3F⟩
  | .wrCtrl _      => ⟨.regWrite, 0x04, 0x3F⟩
  | .wrStatus _    => ⟨.regWrite, 0x0C, 0x3F⟩
  | .wrSrcLo _     => ⟨.regWrite, 0x10, 0x3F⟩
  | .wrSrcHi _     => ⟨.regWrite, 0x14, 0x3F⟩
  | .wrLenLo _     => ⟨.regWrite, 0x18, 0x3F⟩
  | .wrLenHi _     => ⟨.regWrite, 0x1C, 0x3F⟩
  | .wrDigest _ _  => ⟨.regWrite, 0x20, 0x33⟩
  | .wrRsvd _ _    => ⟨.regWrite, 0x30, 0x33⟩
  | .nop _         => ⟨.cmd,      0x00, 0x0F⟩
  | .start _       => ⟨.cmd,      0x01, 0x0F⟩
  | .abort _       => ⟨.cmd,      0x02, 0x0F⟩
  | .cmdRsvd3 _    => ⟨.cmd,      0x03, 0x0F⟩
  | .cmdRsvd47 _   => ⟨.cmd,      0x04, 0x0C⟩
  | .cmdRsvd8F _   => ⟨.cmd,      0x08, 0x08⟩
  | .idle          => ⟨.seq,      0x00, 0x03⟩
  | .load          => ⟨.seq,      0x01, 0x03⟩
  | .round         => ⟨.seq,      0x02, 0x03⟩
  | .feed          => ⟨.seq,      0x03, 0x03⟩
  | .roundF _      => ⟨.round,    0x00, 0x30⟩
  | .roundG _      => ⟨.round,    0x10, 0x30⟩
  | .roundH _      => ⟨.round,    0x20, 0x30⟩
  | .roundI _      => ⟨.round,    0x30, 0x30⟩

/-- The selector that an instruction's operands fix: the offset, the opcode `data[3:0]` or the round index; for a row
without such an operand the row's own match. -/
def Instr.selector (i : Instr) : BitVec 6 :=
  match i with
  | .rdRsvd off | .wrDigest off _ | .wrRsvd off _ => off
  | .nop d | .start d | .abort d | .cmdRsvd3 d | .cmdRsvd47 d | .cmdRsvd8F d =>
      (d.extractLsb' 0 4).zeroExtend 6
  | .roundF k | .roundG k | .roundH k | .roundI k => k
  | .rdId | .rdCtrl | .rdCmd | .rdStatus | .rdSrcLo | .rdSrcHi | .rdLenLo | .rdLenHi
  | .rdDigest0 | .rdDigest1 | .rdDigest2 | .rdDigest3
  | .wrId _ | .wrCtrl _ | .wrStatus _ | .wrSrcLo _ | .wrSrcHi _ | .wrLenLo _ | .wrLenHi _
  | .idle | .load | .round | .feed => i.row.mtch

/-- An instruction is well-formed when its row applies to its selector (R86). -/
def Instr.wf (i : Instr) : Bool := i.row.applies i.selector

end Sys2Proof
end

