-- ==== Sys2Proof/Decode.lean ====
section
/-! DEFINITION. The decoder of host accesses, of engine states and of packets, and the encoder
(spec/30_encoding.md R70 to R86).

The spec's encoding of an access is the triple `(dir, off, data)` (R70, R84), of a command the word written to CMD
(R75, R76), of an engine step the 2-bit `st` (R80), of a round the 6-bit index i (R78). A PACKET is the model's own
layout of these as six bytes (log 11, DESIGN CHOICE): the selector as the opcode table numbers its bits, a code that says
which of the four kinds it is, and the 32 data bits, least significant byte first. -/

namespace Sys2Proof

/-- Why a packet is refused: the access it holds is refused (R81), or it is the encoding of nothing. -/
inductive Reject where
  | access (r : AccessReject)
  | packetLength
  | packetKind
  | packetData
  | packetSelector
  deriving DecidableEq, Repr

/-- R71, R86: the row of format `reg_read` that applies to an offset; every multiple of 4 below 64 has one. -/
def decodeRead (off : BitVec 6) : Except AccessReject Instr :=
  if off &&& 0x3F = 0x00 then .ok .rdId
  else if off &&& 0x3F = 0x04 then .ok .rdCtrl
  else if off &&& 0x3F = 0x08 then .ok .rdCmd
  else if off &&& 0x3F = 0x0C then .ok .rdStatus
  else if off &&& 0x3F = 0x10 then .ok .rdSrcLo
  else if off &&& 0x3F = 0x14 then .ok .rdSrcHi
  else if off &&& 0x3F = 0x18 then .ok .rdLenLo
  else if off &&& 0x3F = 0x1C then .ok .rdLenHi
  else if off &&& 0x3F = 0x20 then .ok .rdDigest0
  else if off &&& 0x3F = 0x24 then .ok .rdDigest1
  else if off &&& 0x3F = 0x28 then .ok .rdDigest2
  else if off &&& 0x3F = 0x2C then .ok .rdDigest3
  else if off &&& 0x33 = 0x30 then .ok (.rdRsvd off)
  else .error .misaligned

/-- R75, R76, R86: the row of format `cmd` that applies to `data[3:0]`; every value has one. -/
def decodeCmd (data : Word) : Instr :=
  let op := data.extractLsb' 0 4
  if op &&& 0xF = 0x0 then .nop data
  else if op &&& 0xF = 0x1 then .start data
  else if op &&& 0xF = 0x2 then .abort data
  else if op &&& 0xF = 0x3 then .cmdRsvd3 data
  else if op &&& 0xC = 0x4 then .cmdRsvd47 data
  else .cmdRsvd8F data

/-- R71, R75, R86: a write; at offset 0x08 it is a command, elsewhere the `reg_write` row that applies. -/
def decodeWrite (off : BitVec 6) (data : Word) : Except AccessReject Instr :=
  if off &&& 0x3F = 0x00 then .ok (.wrId data)
  else if off &&& 0x3F = 0x04 then .ok (.wrCtrl data)
  else if off &&& 0x3F = 0x08 then .ok (decodeCmd data)
  else if off &&& 0x3F = 0x0C then .ok (.wrStatus data)
  else if off &&& 0x3F = 0x10 then .ok (.wrSrcLo data)
  else if off &&& 0x3F = 0x14 then .ok (.wrSrcHi data)
  else if off &&& 0x3F = 0x18 then .ok (.wrLenLo data)
  else if off &&& 0x3F = 0x1C then .ok (.wrLenHi data)
  else if off &&& 0x33 = 0x20 then .ok (.wrDigest off data)
  else if off &&& 0x33 = 0x30 then .ok (.wrRsvd off data)
  else .error .misaligned

/-- R80, R86: the row of format `seq` for a code of the sequencer state; every code has one. -/
def decodeSeq (code : BitVec 2) : Instr :=
  if code &&& 0x3 = 0x0 then .idle
  else if code &&& 0x3 = 0x1 then .load
  else if code &&& 0x3 = 0x2 then .round
  else .feed

/-- R78, R86: the row of format `round` for a round index; every index has one. -/
def decodeRound (i : BitVec 6) : Instr :=
  if i &&& 0x30 = 0x00 then .roundF i
  else if i &&& 0x30 = 0x10 then .roundG i
  else if i &&& 0x30 = 0x20 then .roundH i
  else .roundI i

/-- A decoded offset by direction (R70, R71). -/
def decodeOffset (dir : Dir) (off : BitVec 6) (data : Word) : Except AccessReject Instr :=
  match dir with
  | .read  => decodeRead off
  | .write => decodeWrite off data

/-- R81: the total decoder of host accesses. The grounds for refusing are looked at in the order in which R81 names
them, an address below BASE counting as outside the block (log 18). -/
def decodeAccess (base : Nat) (a : Access) : Except AccessReject Instr :=
  if a.bits ≠ 32 then .error .width
  else if a.addr < base then .error .outsideBlock
  else if (a.addr - base) % 4 ≠ 0 then .error .misaligned
  else if 64 ≤ a.addr - base then .error .outsideBlock
  else decodeOffset a.dir (BitVec.ofNat 6 (a.addr - base)) a.data

/-! ### Packets -/

/-- The packet kind of a selector that comes with no format (log 12). -/
def kindBare : Byte := 0
/-- The packet kind of a host read `(R, off, -)`. -/
def kindRead : Byte := 1
/-- The packet kind of a host write `(W, off, data)`. -/
def kindWrite : Byte := 2
/-- The packet kind of an engine step, by `st`. -/
def kindSeq : Byte := 3
/-- The packet kind of a round, by i. -/
def kindRound : Byte := 4

/-- Four bytes as a 32-bit value, the first least significant. -/
def dataOfBytes (d0 d1 d2 d3 : Byte) : Word := d3 ++ d2 ++ d1 ++ d0

/-- Byte t of a 32-bit value, byte 0 least significant. -/
def byteOfData (d : Word) (t : Nat) : Byte := d.extractLsb' (8 * t) 8

/-- A host access of a packet: the access of R70 at the offset x. -/
def decodeAccessByte (dir : Dir) (x : Byte) (data : Word) : Except Reject Instr :=
  match decodeAccess 0 ⟨dir, 32, x.toNat, data⟩ with
  | .ok i    => .ok i
  | .error r => .error (.access r)

/-- A selector with no format: the opcode table's formats share their selectors, so the first row in the table's order
that applies is taken: a `reg_read` row at an aligned offset, else the `cmd` row of `x[3:0]` (log 12, DESIGN CHOICE). -/
def decodeBare (x : Byte) : Except Reject Instr :=
  if 64 ≤ x.toNat then .error .packetSelector
  else if x.toNat % 4 = 0 then decodeAccessByte .read x 0
  else .ok (decodeCmd (x.zeroExtend 32))

/-- The decoder of packets: total on any bytes. Only a write carries data. -/
def decode (bytes : List Byte) : Except Reject Instr :=
  match bytes with
  | [x, k, d0, d1, d2, d3] =>
    let data := dataOfBytes d0 d1 d2 d3
    if k = kindWrite then decodeAccessByte .write x data
    else if data ≠ 0 then .error .packetData
    else if k = kindRead then decodeAccessByte .read x 0
    else if k = kindSeq then if 4 ≤ x.toNat then .error .packetSelector else .ok (decodeSeq (x.setWidth 2))
    else if k = kindRound then if 64 ≤ x.toNat then .error .packetSelector else .ok (decodeRound (x.setWidth 6))
    else if k = kindBare then decodeBare x
    else .error .packetKind
  | _ => .error .packetLength

/-- The 6 bytes of an instruction whose bits are the number w, bit 0 the least significant bit of the first byte; the
bits above nbits are 0. -/
def tableBytes (nbits w : Nat) : List Byte :=
  let v := w % 2 ^ nbits
  [BitVec.ofNat 8 v, BitVec.ofNat 8 (v >>> 8), BitVec.ofNat 8 (v >>> 16), BitVec.ofNat 8 (v >>> 24),
   BitVec.ofNat 8 (v >>> 32), BitVec.ofNat 8 (v >>> 40)]

/-- What the decoder reads from an instruction whose bits are w, numbered as spec/opcode_table.json numbers them. -/
def decodeTableWord (nbits w : Nat) : Option Instr :=
  match decode (tableBytes nbits w) with
  | .ok i    => some i
  | .error _ => none

/-! ### The encoder -/

/-- The 32 data bits of an instruction: what a write carries, 0 for the others. -/
def Instr.data (i : Instr) : Word :=
  match i with
  | .wrId d | .wrCtrl d | .wrStatus d | .wrSrcLo d | .wrSrcHi d | .wrLenLo d | .wrLenHi d
  | .wrDigest _ d | .wrRsvd _ d
  | .nop d | .start d | .abort d | .cmdRsvd3 d | .cmdRsvd47 d | .cmdRsvd8F d => d
  | .rdId | .rdCtrl | .rdCmd | .rdStatus | .rdSrcLo | .rdSrcHi | .rdLenLo | .rdLenHi
  | .rdDigest0 | .rdDigest1 | .rdDigest2 | .rdDigest3 | .rdRsvd _
  | .idle | .load | .round | .feed | .roundF _ | .roundG _ | .roundH _ | .roundI _ => 0

/-- The selector byte of a packet: the offset of an access (0x08 for a command, R75), `st`, or i. -/
def Instr.selectorByte (i : Instr) : Byte :=
  match i.row.fmt with
  | .cmd => 0x08
  | .regRead | .regWrite | .seq | .round => i.selector.zeroExtend 8

/-- The packet kind of a row's format. -/
def Format.kind : Format → Byte
  | .regRead  => kindRead
  | .regWrite => kindWrite
  | .cmd      => kindWrite
  | .seq      => kindSeq
  | .round    => kindRound

/-- The packet of a well-formed instruction, from the encoding tables of R71, R76, R78 and R80. -/
def encode (i : Instr) : List Byte :=
  [i.selectorByte, i.row.fmt.kind, byteOfData i.data 0, byteOfData i.data 1, byteOfData i.data 2, byteOfData i.data 3]

/-- The host access that carries an instruction of the formats reg_read, reg_write and cmd to an engine at BASE: the
triple of R70, R84. An engine step is no access. -/
def encodeAccess (base : Nat) (i : Instr) : Option Access :=
  match i.row.fmt with
  | .regRead  => some ⟨.read, 32, base + i.selectorByte.toNat, 0⟩
  | .regWrite => some ⟨.write, 32, base + i.selectorByte.toNat, i.data⟩
  | .cmd      => some ⟨.write, 32, base + i.selectorByte.toNat, i.data⟩
  | .seq      => none
  | .round    => none

end Sys2Proof
end

