-- ==== Sys2Proof/Machine/State.lean ====
section
/-! DEFINITION. The state of the MD5 Digest Engine and of what surrounds it (spec/10_state.md), its faults and
refusals, and the reset state (spec/70_reset_and_hazards.md R240). -/

namespace Sys2Proof.Machine

/-- Four 32-bit words: h0..h3 (R38), a, b, c, d (R39) or DIGEST0..DIGEST3 (R33), in that order. -/
structure Quad where
  w0 : Word
  w1 : Word
  w2 : Word
  w3 : Word
  deriving DecidableEq, Repr

/-- The sequencer state `st` (R34). -/
inductive SeqState where
  | idle
  | load
  | round
  | feed
  deriving DecidableEq, Repr

/-- The sticky STATUS flags, which are the causes of spec/60_exceptions.md R221. -/
inductive Cause where
  | done
  | errCmd
  | errBusy
  | errRange
  | aborted
  deriving DecidableEq, Repr

/-- The host-visible registers that have storage (R21 to R33): CTRL.IRQ_EN, the five sticky STATUS flags, SRC, LEN and
DIGEST0..3. ID is a constant, CMD has no storage, STATUS.BUSY is derived from `st` (R25). -/
structure Regs where
  irqEn    : Bool
  done     : Bool
  errCmd   : Bool
  errBusy  : Bool
  errRange : Bool
  aborted  : Bool
  src      : DWord
  len      : DWord
  digest   : Quad
  deriving DecidableEq, Repr

/-- The internal state (R34 to R40): the sequencer state, the operation parameters src_l, n_l, L_l and nblk, the indices
j and i, the running state h0..h3, the working variables a, b, c, d (`v`) and the block buffer Mblk. -/
structure Engine where
  st   : SeqState
  srcL : DWord
  nL   : DWord
  lL   : DWord
  nblk : BitVec 59
  j    : BitVec 59
  i    : BitVec 6
  h    : Quad
  v    : Quad
  mblk : Vector Word 16
  deriving DecidableEq, Repr

/-- One item of the host's program (spec/30_encoding.md R82, R83; spec/20_memory.md R62, R63).
* `access a`: the host makes the access a.
* `poll addr mask value`: POLL: reads the register at addr, and again, until the masked value matches (R83).
* `memWrite addr bytes`: the host writes the message memory (R56, R63).
* `waitIrq`: the host makes no access until irq is asserted (R244). -/
inductive HostOp where
  | access   (a : Access)
  | poll     (addr : Nat) (mask value : Word)
  | memWrite (addr : Nat) (bytes : List Byte)
  | waitIrq
  deriving DecidableEq, Repr

/-- Who moves next (spec/20_memory.md R62). `reset` is the reset input (R240), `agent` a write of the message memory by
an agent other than host and engine (R56, R245). -/
inductive Turn where
  | engine
  | host
  | reset
  | agent (addr : Nat) (bytes : List Byte)
  deriving DecidableEq, Repr

/-- The machine: the platform's parameters, the two parts of the engine's state (R20), the message memory (R8), and the
model's own fields: the data the last read access returned (log 4), the host's remaining program and the schedule
(log 5), whether a message byte was written during the running operation, and how many free digests were drawn
(log 7). -/
structure State where
  platform : Platform
  regs     : Regs
  eng      : Engine
  mem      : List Host.Cell
  rdata    : Word
  host     : List HostOp
  sched    : List Turn
  torn     : Bool
  draws    : Nat
  deriving DecidableEq, Repr

/-- The reasons for which the machine stops with a fault.
* `sideEffectRead`: raised by LOAD when the operation's message range includes an address whose read has a side effect
  (R246 "a model should treat it as a fault of the platform"). Safe.
* `addressOutsideMemory`: raised by LOAD, and by a write of the message memory, for an address that is not below
  2^ADDR_W and so does not exist (R8, R50). No LOAD of an operation that START accepted raises it (R52). Safe. -/
inductive Fault where
  | sideEffectRead
  | addressOutsideMemory
  deriving DecidableEq, Repr

/-- The reasons for which the model gives no meaning. All are safe: the machine stops.
* `notModelled`: raised by exec for an instruction that has no meaning yet (no arm does).
* `accessRefused`: raised by the host's turn for an access that R81 refuses, with the ground. -/
inductive Refusal where
  | notModelled (mnemonic : String)
  | accessRefused (why : AccessReject)
  deriving DecidableEq, Repr

/-- All four words 0. -/
def Quad.zero : Quad := ⟨0, 0, 0, 0⟩

/-- R240: the reset values of the host-visible registers. -/
def Regs.reset : Regs where
  irqEn    := false
  done     := false
  errCmd   := false
  errBusy  := false
  errRange := false
  aborted  := false
  src      := 0
  len      := 0
  digest   := Quad.zero

/-- R240: `st` resets to IDLE. The other internal registers have unspecified values (R45); they are held as 0,
DESIGN CHOICE (log 2), unsafe. -/
def Engine.reset : Engine where
  st   := .idle
  srcL := 0
  nL   := 0
  lL   := 0
  nblk := 0
  j    := 0
  i    := 0
  h    := Quad.zero
  v    := Quad.zero
  mblk := Vector.replicate 16 0

/-- The machine right after reset (R240): the registers at their reset values, a memory with nothing listed, no host
program and no schedule (log 1, 3, 4, 5, 7, 13). -/
def State.reset : State where
  platform := Config.platform
  regs     := Regs.reset
  eng      := Engine.reset
  mem      := []
  rdata    := 0
  host     := []
  sched    := []
  torn     := false
  draws    := 0

end Sys2Proof.Machine
end

