-- ==== Sys2Proof/Machine/Flags.lean ====
section
/-! DEFINITION. The STATUS flags: taking a cause, clearing, the STATUS word and the interrupt line
(spec/10_state.md R24 to R30; spec/60_exceptions.md R221 to R229). The hardware has no other flags (R44). -/

namespace Sys2Proof.Machine

/-- Taking a cause: it sets its sticky flag and nothing else (R221, R228). There is no trap entry and no return
(R228, R229); an acknowledged cause is cleared by `Regs.clear`. -/
def Regs.raise (r : Regs) (c : Cause) : Regs :=
  match c with
  | .done     => { r with done := true }
  | .errCmd   => { r with errCmd := true }
  | .errBusy  => { r with errBusy := true }
  | .errRange => { r with errRange := true }
  | .aborted  => { r with aborted := true }

/-- R175: the write of ones clears the flags it names, bits 1 to 5; bit 0 and bits 31:6 are ignored. -/
def Regs.clear (r : Regs) (data : Word) : Regs :=
  { r with
    done     := r.done && !data.getLsbD 1
    errCmd   := r.errCmd && !data.getLsbD 2
    errBusy  := r.errBusy && !data.getLsbD 3
    errRange := r.errRange && !data.getLsbD 4
    aborted  := r.aborted && !data.getLsbD 5 }

/-- What an accepted START clears: DONE and ABORTED, no error flag (R181, R227). -/
def Regs.clearForStart (r : Regs) : Regs := { r with done := false, aborted := false }

/-- One flag as a 32-bit value at a bit position. -/
def flagAt (b : Bool) (pos : Nat) : Word := if b then 1#32 <<< pos else 0

/-- STATUS.BUSY: `st != IDLE` (R25). -/
def Engine.busy (e : Engine) : Bool := decide (e.st ≠ .idle)

/-- The STATUS word: bit 0 BUSY, 1 DONE, 2 ERR_CMD, 3 ERR_BUSY, 4 ERR_RANGE, 5 ABORTED, 31:6 zero (R24, R174). -/
def statusWord (r : Regs) (e : Engine) : Word :=
  flagAt r.aborted 5 ||| flagAt r.errRange 4 ||| flagAt r.errBusy 3 ||| flagAt r.errCmd 2 ||| flagAt r.done 1
    ||| flagAt e.busy 0

/-- The CTRL word: bit 0 IRQ_EN, 31:1 zero (R22, R171). -/
def ctrlWord (r : Regs) : Word := flagAt r.irqEn 0

/-- The interrupt line (R226). -/
def Regs.irq (r : Regs) : Bool := r.irqEn && (r.done || r.errCmd || r.errBusy || r.errRange || r.aborted)

/-- The interrupt output of the machine (R43, R226). -/
def State.irq (s : State) : Bool := s.regs.irq

end Sys2Proof.Machine
end

