-- ==== Sys2Proof/Machine/Operands.lean ====
section
/-! DEFINITION. Operand forms: bit fields, byte order, the halves of SRC and LEN, the selectors of the round
(spec/00_scope.md R9, R10, R12; spec/30_encoding.md R74, R78, R79). -/

namespace Sys2Proof.Machine

/-- `LE32(b0, b1, b2, b3)`: the first byte is least significant (R12). -/
def le32 (b0 b1 b2 b3 : Byte) : Word :=
  b0.zeroExtend 32 ||| (b1.zeroExtend 32 <<< 8) ||| (b2.zeroExtend 32 <<< 16) ||| (b3.zeroExtend 32 <<< 24)

/-- Byte t of a 64-bit value, `v[8t+7:8t]` (R12). -/
def byteOf64 (v : DWord) (t : Nat) : Byte := v.extractLsb' (8 * t) 8

/-- `LE64(v)`: the 8 bytes of v, least significant byte first (R12). -/
def le64 (v : DWord) : List Byte := (List.range 8).map (byteOf64 v)

/-- Byte t of a 32-bit word, `w[8t+7:8t]` (R161). -/
def byteOf32 (w : Word) (t : Nat) : Byte := w.extractLsb' (8 * t) 8

/-- `rotl(x, s)` for 0 <= s <= 31 (R10). -/
def rotl (x : Word) (s : Nat) : Word := (x <<< s) ||| (x >>> (32 - s))

/-- `v[31:0]` of SRC or LEN (R74). -/
def lowHalf (v : DWord) : Word := v.extractLsb' 0 32

/-- `v[63:32]` of SRC or LEN (R74). -/
def highHalf (v : DWord) : Word := v.extractLsb' 32 32

/-- The 64-bit value assembled from its two halves (R74). -/
def joinHalves (hi lo : Word) : DWord := hi ++ lo

/-- `x mod 2^ADDR_W`, as R178 and R179 store SRC (R31). -/
def truncAddr (addrW : Nat) (x : DWord) : DWord := BitVec.ofNat 64 (x.toNat % 2 ^ addrW)

/-- The 2-bit code of a sequencer state (R80). -/
def SeqState.code : SeqState → BitVec 2
  | .idle  => 0
  | .load  => 1
  | .round => 2
  | .feed  => 3

/-- The sequencer state of a 2-bit code (R80). -/
def SeqState.ofCode (c : BitVec 2) : SeqState :=
  if c = 0 then .idle else if c = 1 then .load else if c = 2 then .round else .feed

/-- The phase `i[5:4]` of a round index (R78). -/
def phase (i : BitVec 6) : BitVec 2 := i.extractLsb' 4 2

/-- A word index reduced modulo 16 (R79). -/
def index16 (n : Nat) : Fin 16 := ⟨n % 16, Nat.mod_lt n (by decide)⟩

/-- The word index of a round of phase 00: i (R135, R141). -/
def indexF (i : BitVec 6) : Fin 16 := index16 i.toNat

/-- The word index of a round of phase 01: (5i + 1) mod 16 (R135, R142). -/
def indexG (i : BitVec 6) : Fin 16 := index16 (5 * i.toNat + 1)

/-- The word index of a round of phase 10: (3i + 5) mod 16 (R135, R143). -/
def indexH (i : BitVec 6) : Fin 16 := index16 (3 * i.toNat + 5)

/-- The word index of a round of phase 11: 7i mod 16 (R135, R144). -/
def indexI (i : BitVec 6) : Fin 16 := index16 (7 * i.toNat)

end Sys2Proof.Machine
end

