-- ==== Sys2Proof/Machine/Md5.lean ====
section
/-! DEFINITION. The algorithm as pure functions: mixing functions, rounds, block compression, padding, block
decomposition, the digest state of a message, and its emission (spec/40_padding_framing.md to
spec/43_digest_emission.md). -/

namespace Sys2Proof.Machine

/-! ### Rounds (spec/42_compression.md) -/

/-- F (R131). -/
def mixF (b c d : Word) : Word := (b &&& c) ||| (~~~b &&& d)
/-- G (R132). -/
def mixG (b c d : Word) : Word := (d &&& b) ||| (~~~d &&& c)
/-- H (R133). -/
def mixH (b c d : Word) : Word := b ^^^ c ^^^ d
/-- I (R134). -/
def mixI (b c d : Word) : Word := c ^^^ (b ||| ~~~d)

/-- The round update of R140 with a given function value f and block word m, both taken on the values at entry: the
assignment is simultaneous (spec/90_conflicts.md C1). -/
def roundUpdate (i : BitVec 6) (v : Quad) (f m : Word) : Quad where
  w0 := v.w3
  w1 := v.w1 + rotl (v.w0 + f + kConst i + m) (rotateAmount i)
  w2 := v.w1
  w3 := v.w2

/-- A round of phase 00 on (a, b, c, d) (R141). -/
def roundOfF (i : BitVec 6) (v : Quad) (m : Vector Word 16) : Quad :=
  roundUpdate i v (mixF v.w1 v.w2 v.w3) (m.get (indexF i))

/-- A round of phase 01 (R142). -/
def roundOfG (i : BitVec 6) (v : Quad) (m : Vector Word 16) : Quad :=
  roundUpdate i v (mixG v.w1 v.w2 v.w3) (m.get (indexG i))

/-- A round of phase 10 (R143). -/
def roundOfH (i : BitVec 6) (v : Quad) (m : Vector Word 16) : Quad :=
  roundUpdate i v (mixH v.w1 v.w2 v.w3) (m.get (indexH i))

/-- A round of phase 11 (R144). -/
def roundOfI (i : BitVec 6) (v : Quad) (m : Vector Word 16) : Quad :=
  roundUpdate i v (mixI v.w1 v.w2 v.w3) (m.get (indexI i))

/-- The mixing function of round i (R130). -/
def mixOf (i : BitVec 6) : Word → Word → Word → Word :=
  if i.toNat < 16 then mixF else if i.toNat < 32 then mixG else if i.toNat < 48 then mixH else mixI

/-- The word index of round i (R135). -/
def wordIndex (i : BitVec 6) : Fin 16 :=
  if i.toNat < 16 then indexF i else if i.toNat < 32 then indexG i
  else if i.toNat < 48 then indexH i else indexI i

/-- `Round(i, a, b, c, d, Mblk)` (R140). -/
def roundAt (i : BitVec 6) (v : Quad) (m : Vector Word 16) : Quad :=
  roundUpdate i v (mixOf i v.w1 v.w2 v.w3) (m.get (wordIndex i))

/-- The rounds 0 .. n - 1 in increasing order (R145). -/
def roundsUpTo (n : Nat) (v : Quad) (m : Vector Word 16) : Quad :=
  match n with
  | 0     => v
  | k + 1 => roundAt (BitVec.ofNat 6 k) (roundsUpTo k v m) m

/-- The additive feedback (R146): word by word, each addition modulo 2^32 (R136). -/
def Quad.add (x y : Quad) : Quad := ⟨x.w0 + y.w0, x.w1 + y.w1, x.w2 + y.w2, x.w3 + y.w3⟩

/-- `Compress(H, W)` (R145). -/
def compress (h : Quad) (w : Vector Word 16) : Quad := h.add (roundsUpTo 64 h w)

/-! ### Padding and blocks (spec/40_padding_framing.md, spec/41_block_decomposition.md) -/

/-- L = 8n mod 2^64 (R101). -/
def bitLength (n : DWord) : DWord := BitVec.ofNat 64 (8 * n.toNat)

/-- The number of blocks, (n + 8) div 64 + 1 (R104). -/
def blockCount (n : Nat) : Nat := (n + 8) / 64 + 1

/-- The zero-fill count z = (55 - n) mod 64, the least non-negative residue (R103). -/
def zeroFill (n : Nat) : Nat := ((55 - (n : Int)) % 64).toNat

/-- The padded buffer P of a message (R102); its invariants are `PaddedInvariants` (R107). -/
def pad (msg : List Byte) : List Byte :=
  msg ++ [0x80] ++ List.replicate (zeroFill msg.length) 0 ++ le64 (BitVec.ofNat 64 (8 * msg.length))

/-- Bytes read as a little-endian integer (R107). -/
def leValue (bytes : List Byte) : Nat := bytes.foldr (fun b v => b.toNat + 256 * v) 0

/-- The invariants of a padded buffer p of a message (R107): whole blocks of 64 bytes; the final 8 bytes, read as a
little-endian integer, are the original bit length L (R101); the message first, then the marker. `pad_invariants` says that
`pad` has them. -/
def PaddedInvariants (msg p : List Byte) : Prop :=
  p.length % 64 = 0 ∧
  leValue (p.drop (p.length - 8)) = 8 * msg.length % 2 ^ 64 ∧
  p.take msg.length = msg ∧
  p[msg.length]? = some 0x80

/-- The 16 little-endian words of 64 bytes given by their index (R121). -/
def blockWords (byte : Nat → Byte) : Vector Word 16 :=
  Vector.ofFn fun w : Fin 16 =>
    le32 (byte (4 * w.val)) (byte (4 * w.val + 1)) (byte (4 * w.val + 2)) (byte (4 * w.val + 3))

/-- `W_j`: the words of block j of a padded buffer (R120, R121). -/
def blockOf (p : List Byte) (j : Nat) : Vector Word 16 := blockWords fun t => p.getD (64 * j + t) 0

/-- The running state after the first n blocks of a padded buffer, starting from IV (R148). -/
def stateAfter (p : List Byte) (n : Nat) : Quad :=
  match n with
  | 0     => iv
  | k + 1 => compress (stateAfter p k) (blockOf p k)

/-- `MD5State(M)` (R148). -/
def md5State (msg : List Byte) : Quad := stateAfter (pad msg) (blockCount msg.length)

/-! ### Emission (spec/43_digest_emission.md) -/

/-- The four bytes of a word, least significant first (R161). -/
def wordBytes (w : Word) : List Byte := (List.range 4).map (byteOf32 w)

/-- The 16 digest bytes D[0..15] of DIGEST0..3 (R161). -/
def digestBytes (q : Quad) : List Byte := wordBytes q.w0 ++ wordBytes q.w1 ++ wordBytes q.w2 ++ wordBytes q.w3

/-- A lowercase hexadecimal digit (R163). -/
def hexDigit (n : BitVec 4) : Char := ['0', '1', '2', '3', '4', '5', '6', '7', '8', '9', 'a', 'b', 'c', 'd', 'e', 'f'].getD n.toNat '0'

/-- The two digits of a byte, high nibble first (R163). -/
def hexOfByte (b : Byte) : List Char := [hexDigit (b.extractLsb' 4 4), hexDigit (b.extractLsb' 0 4)]

/-- The text rendering of a digest that host software makes (R163), as its list of characters. -/
def hexText (q : Quad) : List Char := (digestBytes q).flatMap hexOfByte

/-- A word with its four bytes reversed (R162). -/
def byteReverse (w : Word) : Word := le32 (byteOf32 w 3) (byteOf32 w 2) (byteOf32 w 1) (byteOf32 w 0)

/-- A word as an 8-digit numeral, most significant digit first (R162). -/
def hexNumeral (w : Word) : List Char := (List.range 8).map fun k => hexDigit (w.extractLsb' (28 - 4 * k) 4)

end Sys2Proof.Machine
end

