-- ==== Sys2Proof/Machine/Ops.lean ====
section
/-! DEFINITION. The named operations over memory, registers and engine state that the meanings share. -/

namespace Sys2Proof.Machine

/-! ### The message memory (spec/20_memory.md) -/

/-- The message memory: address and byte pairs, addresses strictly rising, no byte equal to what an unlisted address
reads as. -/
abbrev Memory := List Host.Cell

/-- What an unlisted address reads as. The spec gives no contents (R8, U9); every contents of the finite memory is some
list, so this fixes only what State.reset holds. DESIGN CHOICE (log 3), unsafe. -/
def Memory.unlisted : Byte := 0

/-- `MemRead(addr, 1)` (R14). -/
def Memory.read (m : Memory) (a : Nat) : Byte :=
  match m with
  | []          => Memory.unlisted
  | (b, v) :: r => if b = a then v else Memory.read r a

/-- The write of one byte, which keeps the canonical form. -/
def Memory.write (m : Memory) (a : Nat) (v : Byte) : Memory :=
  match m with
  | [] => if v = Memory.unlisted then [] else [(a, v)]
  | (b, w) :: r =>
    if a < b then if v = Memory.unlisted then (b, w) :: r else (a, v) :: (b, w) :: r
    else if a = b then if v = Memory.unlisted then r else (a, v) :: r
    else (b, w) :: Memory.write r a v

/-- The write of bytes at rising addresses from a on: `MemWrite` of an agent other than the engine (R14, R56). -/
def Memory.writeBytes (m : Memory) (a : Nat) (bytes : List Byte) : Memory :=
  match bytes with
  | []      => m
  | v :: vs => Memory.writeBytes (m.write a v) (a + 1) vs

/-- The canonical form, for addresses from `lo` on. -/
def Memory.wfFrom (lo : Nat) (m : Memory) : Bool :=
  match m with
  | []          => true
  | (a, v) :: r => decide (lo ≤ a) && decide (v ≠ Memory.unlisted) && Memory.wfFrom (a + 1) r

/-- The canonical form. -/
def Memory.wf (m : Memory) : Bool := m.wfFrom 0

/-- Every listed address is below a bound. -/
def Memory.below (bound : Nat) (m : Memory) : Bool := m.all fun c => decide (c.1 < bound)

/-- The number of message-memory bytes, 2^ADDR_W (R50). -/
def memSize (p : Platform) : Nat := 2 ^ p.addrW

/-- The ranges [a, a+n) and [b, b+m) have an address in common. -/
def rangesMeet (a n b m : Nat) : Bool := decide (0 < n ∧ 0 < m ∧ a < b + m ∧ b < a + n)

/-! ### Whole parts of the state -/

/-- The read access of R70 returns its data to the host; it has no other effect (R58). -/
def State.returnData (s : State) (data : Word) : State := { s with rdata := data }

/-- The host-visible registers replaced. -/
def State.withRegs (s : State) (r : Regs) : State := { s with regs := r }

/-- The internal state replaced. -/
def State.withEng (s : State) (e : Engine) : State := { s with eng := e }

/-- Taking a cause in the machine: the flag, and nothing else (R221, R228). -/
def State.raise (s : State) (c : Cause) : State := s.withRegs (s.regs.raise c)

/-- The outcome with f applied to a next state; a fault or a refusal stands. -/
def mapNext (f : State → State) (o : Host.Outcome State Fault Refusal) : Host.Outcome State Fault Refusal :=
  match o with
  | .next s    => .next (f s)
  | .fault r   => .fault r
  | .refused r => .refused r

/-! ### The host-visible registers -/

/-- SRC stored with ADDR_W bits (R31). -/
def State.setSrc (s : State) (v : DWord) : State := s.withRegs { s.regs with src := truncAddr s.platform.addrW v }

/-- LEN stored (R32). -/
def State.setLen (s : State) (v : DWord) : State := s.withRegs { s.regs with len := v }

/-- The identification value (R21). -/
def idWord : Word := 0x4D443501

/-! ### The operation: START, the block, the rounds, the feedback -/

/-- `SRC + LEN > 2^ADDR_W`, in unbounded arithmetic (R181). -/
def State.startOutOfRange (s : State) : Bool :=
  decide (memSize s.platform < s.regs.src.toNat + s.regs.len.toNat)

/-- The internal registers that an accepted START writes (R181): the latched parameters, h0..h3, j and st. -/
def Engine.latch (e : Engine) (src len : DWord) : Engine :=
  { e with
    srcL := src
    nL   := len
    lL   := bitLength len
    nblk := BitVec.ofNat 59 (blockCount len.toNat)
    h    := iv
    j    := 0
    st   := .load }

/-- The accepted START (R181). A new operation begins with no message byte written (R245). -/
def State.acceptStart (s : State) : State :=
  { s with regs := s.regs.clearForStart, eng := s.eng.latch s.regs.src s.regs.len, torn := false }

/-- The padded-byte function PB(k) on the latched parameters (R105). -/
def padByte (e : Engine) (m : Memory) (k : Nat) : Byte :=
  if k < e.nL.toNat then m.read (e.srcL.toNat + k)
  else if k = e.nL.toNat then 0x80
  else if k < 64 * e.nblk.toNat - 8 then 0
  else byteOf64 e.lL (k - (64 * e.nblk.toNat - 8))

/-- The words that the LOAD of block j forms (R121, R201). -/
def loadWords (e : Engine) (m : Memory) : Vector Word 16 := blockWords fun t => padByte e m (64 * e.j.toNat + t)

/-- The internal registers that a LOAD writes (R201). -/
def Engine.enterBlock (e : Engine) (w : Vector Word 16) : Engine :=
  { e with mblk := w, v := e.h, i := 0, st := .round }

/-- The operation's message range includes an address whose read has a side effect (R246). -/
def State.messageTouchesDevice (s : State) : Bool :=
  s.platform.devices.any fun d => rangesMeet d.1 d.2 s.eng.srcL.toNat s.eng.nL.toNat

/-- Every message byte that the LOAD of block j reads exists: its reads are at src_l + k for
64j <= k < min(64j + 64, n_l) (R52, R201). -/
def State.blockInMemory (s : State) : Bool :=
  decide (s.eng.nL.toNat ≤ 64 * s.eng.j.toNat ∨
    s.eng.srcL.toNat + min (64 * s.eng.j.toNat + 64) s.eng.nL.toNat ≤ memSize s.platform)

/-- The working variables replaced: all that a round writes (R151). -/
def State.setWork (s : State) (v : Quad) : State := s.withEng { s.eng with v := v }

/-- The end of a ROUND step: round 63 is followed by FEED, any other by the next round (R202). -/
def Engine.advance (e : Engine) : Engine := if e.i = 63 then { e with st := .feed } else { e with i := e.i + 1 }

/-- Block j is the operation's last, j = nblk - 1 as integers (R203; log 17). -/
def Engine.lastBlock (e : Engine) : Bool := decide (e.j.toNat + 1 = e.nblk.toNat)

/-- The four words of a free digest (R245; log 7). -/
def freeQuad (k : Nat) : Quad where
  w0 := (Config.freeDigest k).extractLsb' 0 32
  w1 := (Config.freeDigest k).extractLsb' 32 32
  w2 := (Config.freeDigest k).extractLsb' 64 32
  w3 := (Config.freeDigest k).extractLsb' 96 32

/-- What the completion step writes to DIGEST0..3: the new h (R203, R205), or a free value if a message byte was written
while the operation ran (R245). -/
def State.result (s : State) (h : Quad) : Quad := if s.torn then freeQuad s.draws else h

/-- The completion step, given the new h (R205). -/
def State.complete (s : State) (h : Quad) : State :=
  { s with
    regs  := { s.regs.raise .done with digest := s.result h }
    eng   := { s.eng with h := h, st := .idle }
    draws := if s.torn then s.draws + 1 else s.draws }

/-- The FEED of a block that another follows, given the new h (R204). -/
def State.nextBlock (s : State) (h : Quad) : State :=
  s.withEng { s.eng with h := h, j := s.eng.j + 1, st := .load }

/-! ### What the surroundings do -/

/-- A write of the message memory by the host or another agent, as one atomic step (R16, R56). A byte of the running
operation's message, rewritten or not, makes its digest a draw (R245; log 7). -/
def storeMessage (addr : Nat) (bytes : List Byte) (s : State) : Host.Outcome State Fault Refusal :=
  if bytes ≠ [] ∧ memSize s.platform < addr + bytes.length then .fault .addressOutsideMemory
  else .next { s with
    mem  := Memory.writeBytes s.mem addr bytes
    torn := s.torn || (s.eng.busy && rangesMeet addr bytes.length s.eng.srcL.toNat s.eng.nL.toNat) }

/-- The reset input (R240, R241): every register to its reset value; the message memory, the platform, the host and the
schedule are not the engine's and stay (log 19). -/
def State.resetInput (s : State) : State :=
  { s with regs := Regs.reset, eng := Engine.reset, torn := false }

end Sys2Proof.Machine
end

