-- ==== Sys2Proof/Machine/Commands.lean ====
section
/-! DEFINITION. The meanings of the cmd rows: writes to CMD (spec/44_host_commands.md R180 to R183). Bits 31:4 of the
data are ignored (R75). -/

namespace Sys2Proof.Machine

/-- NOP (R180). -/
def execNop (_data : Word) (s : State) : Host.Outcome State Fault Refusal := .next s

/-- START (R181): the busy check comes before the range check (R224). -/
def execStart (_data : Word) (s : State) : Host.Outcome State Fault Refusal :=
  if s.eng.busy then .next (s.raise .errBusy)
  else if s.startOutOfRange then .next (s.raise .errRange)
  else .next s.acceptStart

/-- ABORT (R182): while busy it stops the operation, while idle it has no effect. -/
def execAbort (_data : Word) (s : State) : Host.Outcome State Fault Refusal :=
  if s.eng.busy then .next ((s.withEng { s.eng with st := .idle }).raise .aborted) else .next s

/-- A reserved opcode sets ERR_CMD and does nothing else (R183). -/
def reservedCommand (s : State) : Host.Outcome State Fault Refusal := .next (s.raise .errCmd)

/-- CMD_RSVD_3: OP = 0x3 (R183). -/
def execCmdRsvd3 (_data : Word) (s : State) : Host.Outcome State Fault Refusal := reservedCommand s

/-- CMD_RSVD_4_7: OP = 0x4 to 0x7 (R183). -/
def execCmdRsvd47 (_data : Word) (s : State) : Host.Outcome State Fault Refusal := reservedCommand s

/-- CMD_RSVD_8_F: OP = 0x8 to 0xF (R183). -/
def execCmdRsvd8F (_data : Word) (s : State) : Host.Outcome State Fault Refusal := reservedCommand s

end Sys2Proof.Machine
end

