-- ==== Sys2Proof/Machine/ReadRegs.lean ====
section
/-! DEFINITION. The meanings of the reg_read rows (spec/44_host_commands.md R170 to R174, R176, R177, R184, R185,
R188 to R191, R193). A read returns its data and changes nothing (R58). -/

namespace Sys2Proof.Machine

/-- RD.ID (R170). -/
def execRdId (s : State) : Host.Outcome State Fault Refusal := .next (s.returnData idWord)

/-- RD.CTRL (R171). -/
def execRdCtrl (s : State) : Host.Outcome State Fault Refusal := .next (s.returnData (ctrlWord s.regs))

/-- RD.CMD (R173). -/
def execRdCmd (s : State) : Host.Outcome State Fault Refusal := .next (s.returnData 0)

/-- RD.STATUS (R174). -/
def execRdStatus (s : State) : Host.Outcome State Fault Refusal := .next (s.returnData (statusWord s.regs s.eng))

/-- RD.SRC_LO (R176). -/
def execRdSrcLo (s : State) : Host.Outcome State Fault Refusal := .next (s.returnData (lowHalf s.regs.src))

/-- RD.SRC_HI (R177). -/
def execRdSrcHi (s : State) : Host.Outcome State Fault Refusal := .next (s.returnData (highHalf s.regs.src))

/-- RD.LEN_LO (R184). -/
def execRdLenLo (s : State) : Host.Outcome State Fault Refusal := .next (s.returnData (lowHalf s.regs.len))

/-- RD.LEN_HI (R185). -/
def execRdLenHi (s : State) : Host.Outcome State Fault Refusal := .next (s.returnData (highHalf s.regs.len))

/-- RD.DIGEST0 (R188). -/
def execRdDigest0 (s : State) : Host.Outcome State Fault Refusal := .next (s.returnData s.regs.digest.w0)

/-- RD.DIGEST1 (R189). -/
def execRdDigest1 (s : State) : Host.Outcome State Fault Refusal := .next (s.returnData s.regs.digest.w1)

/-- RD.DIGEST2 (R190). -/
def execRdDigest2 (s : State) : Host.Outcome State Fault Refusal := .next (s.returnData s.regs.digest.w2)

/-- RD.DIGEST3 (R191). -/
def execRdDigest3 (s : State) : Host.Outcome State Fault Refusal := .next (s.returnData s.regs.digest.w3)

/-- RD.RSVD: a reserved offset reads 0 (R193). -/
def execRdRsvd (_off : BitVec 6) (s : State) : Host.Outcome State Fault Refusal := .next (s.returnData 0)

end Sys2Proof.Machine
end

