-- ==== Sys2Proof/Machine/Rounds.lean ====
section
/-! DEFINITION. The meanings of the round rows (spec/42_compression.md R141 to R144): round i on a, b, c, d and Mblk.
Each writes a, b, c, d and nothing else (R151); the index i and the sequencer state are the ROUND step's (R202). -/

namespace Sys2Proof.Machine

/-- ROUND_F (R141). -/
def execRoundF (i : BitVec 6) (s : State) : Host.Outcome State Fault Refusal :=
  .next (s.setWork (roundOfF i s.eng.v s.eng.mblk))

/-- ROUND_G (R142). -/
def execRoundG (i : BitVec 6) (s : State) : Host.Outcome State Fault Refusal :=
  .next (s.setWork (roundOfG i s.eng.v s.eng.mblk))

/-- ROUND_H (R143). -/
def execRoundH (i : BitVec 6) (s : State) : Host.Outcome State Fault Refusal :=
  .next (s.setWork (roundOfH i s.eng.v s.eng.mblk))

/-- ROUND_I (R144). -/
def execRoundI (i : BitVec 6) (s : State) : Host.Outcome State Fault Refusal :=
  .next (s.setWork (roundOfI i s.eng.v s.eng.mblk))

end Sys2Proof.Machine
end

