-- ==== Sys2Proof/Machine/Sequencer.lean ====
section
/-! DEFINITION. The meanings of the seq rows: the engine's steps (spec/45_engine_sequencer.md R200 to R205). -/

namespace Sys2Proof.Machine

/-- IDLE: the engine takes no step (R200). -/
def execIdle (s : State) : Host.Outcome State Fault Refusal := .next s

/-- LOAD (R201). It stops only where the spec puts the platform outside its scope (R246; log 9) or no such memory exists
(R8; log 10). -/
def execLoad (s : State) : Host.Outcome State Fault Refusal :=
  if s.messageTouchesDevice then .fault .sideEffectRead
  else if !s.blockInMemory then .fault .addressOutsideMemory
  else .next (s.withEng (s.eng.enterBlock (loadWords s.eng s.mem)))

/-- The round row that the phase of i selects (R78, R202). -/
def execPhase (s : State) : Host.Outcome State Fault Refusal :=
  if phase s.eng.i = 0 then execRoundF s.eng.i s
  else if phase s.eng.i = 1 then execRoundG s.eng.i s
  else if phase s.eng.i = 2 then execRoundH s.eng.i s
  else execRoundI s.eng.i s

/-- ROUND: the round of i's phase, then i or st (R202). -/
def execRound (s : State) : Host.Outcome State Fault Refusal :=
  mapNext (fun t => t.withEng t.eng.advance) (execPhase s)

/-- FEED: the feedback, then completion (R205) or the next block (R203, R204). -/
def execFeed (s : State) : Host.Outcome State Fault Refusal :=
  if s.eng.lastBlock then .next (s.complete (s.eng.h.add s.eng.v)) else .next (s.nextBlock (s.eng.h.add s.eng.v))

end Sys2Proof.Machine
end

