-- ==== Sys2Proof/Machine/WriteRegs.lean ====
section
/-! DEFINITION. The meanings of the reg_write rows (spec/44_host_commands.md R172, R175, R178, R179, R186, R187, R192,
R194). Each applies in every state, busy or idle (R195). -/

namespace Sys2Proof.Machine

/-- WR.ID: ignored (R192). -/
def execWrId (_data : Word) (s : State) : Host.Outcome State Fault Refusal := .next s

/-- WR.CTRL: bit 0 is stored (R172). -/
def execWrCtrl (data : Word) (s : State) : Host.Outcome State Fault Refusal :=
  .next (s.withRegs { s.regs with irqEn := data.getLsbD 0 })

/-- WR.STATUS: write-one-to-clear of bits 5:1 (R175). -/
def execWrStatus (data : Word) (s : State) : Host.Outcome State Fault Refusal := .next (s.withRegs (s.regs.clear data))

/-- WR.SRC_LO (R178). -/
def execWrSrcLo (data : Word) (s : State) : Host.Outcome State Fault Refusal :=
  .next (s.setSrc (joinHalves (highHalf s.regs.src) data))

/-- WR.SRC_HI (R179). -/
def execWrSrcHi (data : Word) (s : State) : Host.Outcome State Fault Refusal :=
  .next (s.setSrc (joinHalves data (lowHalf s.regs.src)))

/-- WR.LEN_LO (R186). -/
def execWrLenLo (data : Word) (s : State) : Host.Outcome State Fault Refusal :=
  .next (s.setLen (joinHalves (highHalf s.regs.len) data))

/-- WR.LEN_HI (R187). -/
def execWrLenHi (data : Word) (s : State) : Host.Outcome State Fault Refusal :=
  .next (s.setLen (joinHalves data (lowHalf s.regs.len)))

/-- WR.DIGEST: ignored at each of its four offsets (R192). -/
def execWrDigest (_off : BitVec 6) (_data : Word) (s : State) : Host.Outcome State Fault Refusal := .next s

/-- WR.RSVD: ignored at each of its four offsets (R194). -/
def execWrRsvd (_off : BitVec 6) (_data : Word) (s : State) : Host.Outcome State Fault Refusal := .next s

end Sys2Proof.Machine
end

