-- ==== Sys2Proof/Machine/Dispatch.lean ====
section
/-! DEFINITION. exec: one arm per row of spec/opcode_table.json. -/

namespace Sys2Proof.Machine

def exec (i : Instr) (s : State) : Host.Outcome State Fault Refusal :=
  match i with
  -- reg_read
  | .rdId => Sys2Proof.Machine.execRdId s
  | .rdCtrl => Sys2Proof.Machine.execRdCtrl s
  | .rdCmd => Sys2Proof.Machine.execRdCmd s
  | .rdStatus => Sys2Proof.Machine.execRdStatus s
  | .rdSrcLo => Sys2Proof.Machine.execRdSrcLo s
  | .rdSrcHi => Sys2Proof.Machine.execRdSrcHi s
  | .rdLenLo => Sys2Proof.Machine.execRdLenLo s
  | .rdLenHi => Sys2Proof.Machine.execRdLenHi s
  | .rdDigest0 => Sys2Proof.Machine.execRdDigest0 s
  | .rdDigest1 => Sys2Proof.Machine.execRdDigest1 s
  | .rdDigest2 => Sys2Proof.Machine.execRdDigest2 s
  | .rdDigest3 => Sys2Proof.Machine.execRdDigest3 s
  | .rdRsvd off => Sys2Proof.Machine.execRdRsvd off s
  -- reg_write
  | .wrId data => Sys2Proof.Machine.execWrId data s
  | .wrCtrl data => Sys2Proof.Machine.execWrCtrl data s
  | .wrStatus data => Sys2Proof.Machine.execWrStatus data s
  | .wrSrcLo data => Sys2Proof.Machine.execWrSrcLo data s
  | .wrSrcHi data => Sys2Proof.Machine.execWrSrcHi data s
  | .wrLenLo data => Sys2Proof.Machine.execWrLenLo data s
  | .wrLenHi data => Sys2Proof.Machine.execWrLenHi data s
  | .wrDigest off data => Sys2Proof.Machine.execWrDigest off data s
  | .wrRsvd off data => Sys2Proof.Machine.execWrRsvd off data s
  -- cmd
  | .nop data => Sys2Proof.Machine.execNop data s
  | .start data => Sys2Proof.Machine.execStart data s
  | .abort data => Sys2Proof.Machine.execAbort data s
  | .cmdRsvd3 data => Sys2Proof.Machine.execCmdRsvd3 data s
  | .cmdRsvd47 data => Sys2Proof.Machine.execCmdRsvd47 data s
  | .cmdRsvd8F data => Sys2Proof.Machine.execCmdRsvd8F data s
  -- seq
  | .idle => Sys2Proof.Machine.execIdle s
  | .load => Sys2Proof.Machine.execLoad s
  | .round => Sys2Proof.Machine.execRound s
  | .feed => Sys2Proof.Machine.execFeed s
  -- round
  | .roundF k => Sys2Proof.Machine.execRoundF k s
  | .roundG k => Sys2Proof.Machine.execRoundG k s
  | .roundH k => Sys2Proof.Machine.execRoundH k s
  | .roundI k => Sys2Proof.Machine.execRoundI k s

end Sys2Proof.Machine
end

