-- ==== Sys2Proof/Machine/Turns.lean ====
section
/-! DEFINITION. What one turn of the host, of the engine, of reset or of another agent does (spec/00_scope.md R16;
spec/20_memory.md R62; spec/30_encoding.md R81, R83; spec/45_engine_sequencer.md R200). -/

namespace Sys2Proof.Machine

/-- The engine's next operation: the seq row of `st` (R80, R200). -/
def decodeEngine (e : Engine) : Instr := decodeSeq e.st.code

/-- The engine's turn (R200). -/
def engineTurn (s : State) : Host.Outcome State Fault Refusal := exec (decodeEngine s.eng) s

/-- A host access: decoded against BASE and run, or refused (R81). -/
def hostAccess (a : Access) (s : State) : Host.Outcome State Fault Refusal :=
  match decodeAccess s.platform.base a with
  | .ok i    => exec i s
  | .error r => .refused (.accessRefused r)

/-- The read that one iteration of POLL makes (R83). -/
def pollAccess (addr : Nat) : Access := ⟨.read, 32, addr, 0⟩

/-- After an iteration of POLL the host goes on with the rest of its program when the masked value matches, and
otherwise polls again (R83). -/
def pollAgain (mask value : Word) (rest : List HostOp) (t : State) : State :=
  if t.rdata &&& mask = value then { t with host := rest } else t

/-- The host's turn: the next item of its program, in program order (R62). A host with nothing left to do does nothing
(log 6); one iteration of POLL is one read (R83); a host that waits for irq makes no access (R244). -/
def hostTurn (s : State) : Host.Outcome State Fault Refusal :=
  match s.host with
  | []                          => .next s
  | .access a :: rest           => hostAccess a { s with host := rest }
  | .poll addr mask value :: rest => mapNext (pollAgain mask value rest) (hostAccess (pollAccess addr) s)
  | .memWrite addr bytes :: rest => storeMessage addr bytes { s with host := rest }
  | .waitIrq :: rest            => .next (if s.irq then { s with host := rest } else s)

/-- Who moves next: the head of the schedule; when it has ended, the engine while it is busy, else the host. The default
is weakly fair (R208; log 5). -/
def State.nextTurn (s : State) : Turn :=
  match s.sched with
  | t :: _ => t
  | []     => if s.eng.busy then .engine else .host

/-- One turn taken. -/
def takeTurn (t : Turn) (s : State) : Host.Outcome State Fault Refusal :=
  match t with
  | .engine           => engineTurn s
  | .host             => hostTurn s
  | .reset            => .next s.resetInput
  | .agent addr bytes => storeMessage addr bytes s

/-! ### Placing one instruction as the next to run (log 12, 13) -/

/-- s with `op` as the host's next item and the host as the next to move. -/
def State.withHostOp (s : State) (op : HostOp) : State := { s with host := op :: s.host, sched := .host :: s.sched }

/-- s with the engine next to move from the sequencer state st. -/
def State.withEngineAt (s : State) (st : SeqState) : State :=
  { s with eng := { s.eng with st := st }, sched := .engine :: s.sched }

/-- s with the engine next to perform round i. -/
def State.withRoundAt (s : State) (i : BitVec 6) : State :=
  { s with eng := { s.eng with st := .round, i := i }, sched := .engine :: s.sched }

/-- s with the instruction i placed where the next step takes it from: a host access as the host's next item, an engine
step as the sequencer state, a round as the sequencer state ROUND with its index. -/
def State.placeInstr (s : State) (i : Instr) : State :=
  match encodeAccess s.platform.base i with
  | some a => s.withHostOp (.access a)
  | none =>
    match i.row.fmt with
    | .round => s.withRoundAt i.selector
    | .regRead | .regWrite | .cmd | .seq => s.withEngineAt (SeqState.ofCode (i.selector.extractLsb' 0 2))

/-- s with the instruction of a table word placed as the next to run; a word that decodes to nothing is placed as the
host's access at that offset, which the next step refuses. -/
def State.placeWord (s : State) (nbits w : Nat) : State :=
  match decodeTableWord nbits w with
  | some i => s.placeInstr i
  | none   => s.withHostOp (.access ⟨.read, 32, s.platform.base + w % 2 ^ nbits, 0⟩)

end Sys2Proof.Machine
end

