-- ==== Sys2Proof/Machine/Step.lean ====
section
/-! DEFINITION. One atomic step of the machine (spec/20_memory.md R62), and the placing of one instruction as the next
to run. -/

namespace Sys2Proof.Machine

/-- One step: whoever moves next takes its turn. -/
def step (s : State) : Host.Outcome State Fault Refusal := takeTurn s.nextTurn { s with sched := s.sched.tail }

/-- s with the instruction of a table word stored where the next step takes it from (log 12, 13). -/
def State.withFetchWord (s : State) (nbits w : Nat) : State := s.placeWord nbits w

end Sys2Proof.Machine
end

