-- ==== Sys2Proof/Machine/HostProgram.lean ====
section
/-! DEFINITION. Host programs and their pseudo-instructions (spec/30_encoding.md R82 to R84). A line expands to items of
the host's program; where the spec leaves an instruction set of the host out, only POLL and WAIT loop (R82). -/

namespace Sys2Proof.Machine

/-- A register name of R71, or `RSVD+<off>` (R82). R82 has `RSVD+<off>` for the reserved offsets 0x30, 0x34, 0x38 and 0x3C
alone; DESIGN CHOICE (log 27): the model's `rsvd` takes any offset. -/
inductive RegName where
  | id
  | ctrl
  | cmd
  | status
  | srcLo
  | srcHi
  | lenLo
  | lenHi
  | digest0
  | digest1
  | digest2
  | digest3
  | rsvd (off : Nat)
  deriving DecidableEq, Repr

/-- The offset of a register (R71), and of `RSVD+<off>` the number off itself (R82, as R193 and R194 use it).
DESIGN CHOICE (log 27): so too where off is no reserved offset, a line R82 does not have; it then names the access at that
offset (`WR RSVD+0x08, 1` is a START), or one that R81 refuses. -/
def RegName.offset : RegName → Nat
  | .id       => 0x00
  | .ctrl     => 0x04
  | .cmd      => 0x08
  | .status   => 0x0C
  | .srcLo    => 0x10
  | .srcHi    => 0x14
  | .lenLo    => 0x18
  | .lenHi    => 0x1C
  | .digest0  => 0x20
  | .digest1  => 0x24
  | .digest2  => 0x28
  | .digest3  => 0x2C
  | .rsvd off => off

/-- A line of a host program: `WR`, `RD` and the pseudo-instructions of R83. -/
inductive Line where
  | wr (reg : RegName) (value : Word)
  | rd (reg : RegName)
  | nop
  | start
  | abort
  | setSrc (addr : DWord)
  | setLen (n : DWord)
  | clrst
  | poll (reg : RegName) (mask value : Word)
  | wait
  | rddig
  deriving DecidableEq, Repr

/-- `WR <reg>, <value>`: the access `(W, off(reg), value)` (R82, R84). -/
def wrOp (base : Nat) (reg : RegName) (value : Word) : HostOp := .access ⟨.write, 32, base + reg.offset, value⟩

/-- `RD <reg>`: the access `(R, off(reg), -)` (R82, R84). -/
def rdOp (base : Nat) (reg : RegName) : HostOp := .access ⟨.read, 32, base + reg.offset, 0⟩

/-- The expansion of a line (R83). -/
def Line.expand (base : Nat) (l : Line) : List HostOp :=
  match l with
  | .wr reg value        => [wrOp base reg value]
  | .rd reg              => [rdOp base reg]
  | .nop                 => [wrOp base .cmd 0x00000000]
  | .start               => [wrOp base .cmd 0x00000001]
  | .abort               => [wrOp base .cmd 0x00000002]
  | .setSrc addr         => [wrOp base .srcLo (lowHalf addr), wrOp base .srcHi (highHalf addr)]
  | .setLen n            => [wrOp base .lenLo (lowHalf n), wrOp base .lenHi (highHalf n)]
  | .clrst               => [wrOp base .status 0x0000003E]
  | .poll reg mask value => [.poll (base + reg.offset) mask value]
  | .wait                => [.poll (base + RegName.status.offset) 0x00000001 0x00000000]
  | .rddig               => [rdOp base .digest0, rdOp base .digest1, rdOp base .digest2, rdOp base .digest3]

/-- The host's program of a list of lines. -/
def assemble (base : Nat) (lines : List Line) : List HostOp := lines.flatMap (Line.expand base)

end Sys2Proof.Machine
end

