-- ==== Sys2Proof/Safety.lean ====
section
/-! DEFINITION. What counts as a safe state and a safe run (spec/10_state.md R42; spec/45_engine_sequencer.md R207),
in the terms the statements use. -/

namespace Sys2Proof.Machine

/-- The message of the latched operation: the bytes Mem[src_l .. src_l + n_l - 1] (R100). -/
def State.message (s : State) : List Byte :=
  (List.range s.eng.nL.toNat).map fun k => Memory.read s.mem (s.eng.srcL.toNat + k)

/-- What an accepted START latched: the range lies in memory, L_l and nblk follow from n_l (R35, R181), and j is below
nblk (R36, R42). -/
structure Latched (p : Platform) (e : Engine) : Prop where
  range : e.srcL.toNat + e.nL.toNat ≤ memSize p
  bits  : e.lL = bitLength e.nL
  count : e.nblk.toNat = blockCount e.nL.toNat
  index : e.j.toNat < e.nblk.toNat

/-- The invariant of the engine: the platform's parameters are in their bounds (R6, R7), the memory is canonical and
lies below 2^ADDR_W (R8), SRC is below 2^ADDR_W (R31, R42), and a busy engine's parameters are those an accepted START
latched (R35, R42). -/
structure Inv (s : State) : Prop where
  platform : s.platform.wf = true
  memWf    : Memory.wf s.mem = true
  memBelow : Memory.below (memSize s.platform) s.mem = true
  src      : s.regs.src.toNat < memSize s.platform
  latched  : s.eng.busy = true → Latched s.platform s.eng

/-- Where the engine stands in the algorithm (R42, R147): while it is busy on a message no byte of which was written,
h0..h3 are the running state after the blocks before j; in ROUND, Mblk is block j and a..d are the working variables
after the rounds before i; in FEED, after all 64. -/
def OnTrack (s : State) : Prop :=
  s.torn = false →
    (s.eng.busy = true → s.eng.h = stateAfter (pad s.message) s.eng.j.toNat) ∧
    (s.eng.st = .round →
      s.eng.mblk = blockOf (pad s.message) s.eng.j.toNat ∧
      s.eng.v = roundsUpTo s.eng.i.toNat s.eng.h s.eng.mblk) ∧
    (s.eng.st = .feed →
      s.eng.mblk = blockOf (pad s.message) s.eng.j.toNat ∧
      s.eng.v = roundsUpTo 64 s.eng.h s.eng.mblk)

/-- What the host can observe (R17): the value every read access returns, and irq. `exec` is asked for each readable
register; the answer is what it returns. -/
def State.observe (s : State) (i : Instr) : Option Word :=
  match exec i s with
  | .next t    => some t.rdata
  | .fault _   => none
  | .refused _ => none

/-- A run is safe when none of its first n steps stops. -/
def SafeRun (n : Nat) (s : State) : Prop := ∃ t, Host.Core.run core n s = .next t

end Sys2Proof.Machine
end

