-- ==== Sys2Proof/Certificates/Slice0/Obligations.lean ====
section
/-! DEFINITION. The statements about the MD5 Digest Engine, from the numbered rules of spec/. Each docstring names the
rule it formalises. A next state written out as a record update leaves every field it does not name unchanged, the whole
message memory among them: that is the instruction's frame. -/

open Sys2Proof Sys2Proof.Machine

/-! ### Encoding -/

/-- R70, R75, R76, R78, R80: words written out from the spec's encoding decode to the instruction they stand for, at any
BASE for the accesses. -/
def Obligations.SampleWordsDecode : Prop :=
  (∀ base, decodeAccess base ⟨.read, 32, base + 0x0C, 0⟩ = .ok .rdStatus) ∧
  (∀ base, decodeAccess base ⟨.read, 32, base + 0x3C, 0⟩ = .ok (.rdRsvd 0x3C)) ∧
  (∀ base, decodeAccess base ⟨.write, 32, base + 0x10, 0x12345678⟩ = .ok (.wrSrcLo 0x12345678)) ∧
  (∀ base, decodeAccess base ⟨.write, 32, base + 0x24, 7⟩ = .ok (.wrDigest 0x24 7)) ∧
  (∀ base, decodeAccess base ⟨.write, 32, base + 0x08, 0x11⟩ = .ok (.start 0x11)) ∧
  (∀ base, decodeAccess base ⟨.write, 32, base + 0x08, 0xFFFFFFF0⟩ = .ok (.nop 0xFFFFFFF0)) ∧
  decodeSeq 2 = .round ∧ decodeRound 0x3F = .roundI 0x3F

/-- Decode and encode agree: the packet of every well-formed instruction decodes to it, every operand at every value.
The packet layout is the model's (log 11, DESIGN CHOICE). -/
def Obligations.DecodeOfEncode : Prop :=
  ∀ i : Instr, i.wf = true → decode (encode i) = .ok i

/-- R70, R84: the access that carries a well-formed register access or command decodes back to it at every BASE, and
exactly the engine's own steps (formats seq and round) have no access. -/
def Obligations.AccessOfInstrDecodes : Prop :=
  ∀ (base : Nat) (i : Instr), i.wf = true →
    match encodeAccess base i with
    | some a => decodeAccess base a = .ok i
    | none   => i.row.fmt = .seq ∨ i.row.fmt = .round

/-- R81: the decoder of host accesses is total: it refuses exactly an access whose width is not 32 bits, whose offset is
not a multiple of 4 or which lies outside the register block; every other access is one well-formed row, whose encoding
is that access again (a read carries no data). -/
def Obligations.AccessDecoderIsTotal : Prop :=
  ∀ (base : Nat) (a : Access),
    ((a.bits ≠ 32 ∨ a.addr < base ∨ (a.addr - base) % 4 ≠ 0 ∨ 64 ≤ a.addr - base) →
      ∃ r, decodeAccess base a = .error r) ∧
    (a.bits = 32 → base ≤ a.addr → (a.addr - base) % 4 = 0 → a.addr - base < 64 →
      ∃ i, decodeAccess base a = .ok i ∧ i.wf = true ∧
        encodeAccess base i = some { a with data := if a.dir = .write then a.data else 0 })

/-! ### A step runs the decoded instruction -/

/-- R62: when the host moves next and its next item is an access that decodes to i, the step is exec of i, the host's
program and the schedule each moved past what was used. -/
def Obligations.StepRunsHostAccess : Prop :=
  ∀ (s : State) (a : Access) (rest : List HostOp) (turns : List Turn) (i : Instr),
    s.sched = .host :: turns → s.host = .access a :: rest → decodeAccess s.platform.base a = .ok i →
    step s = exec i { s with host := rest, sched := turns }

/-- R200, R80: when the engine moves next, the step is exec of the one row that `st` selects; with no schedule left a
busy engine moves next (log 5, the model's choice). -/
def Obligations.StepRunsEngineRow : Prop :=
  ∀ (s : State),
    (∀ turns, s.sched = .engine :: turns →
      (s.eng.st = .idle → step s = exec .idle { s with sched := turns }) ∧
      (s.eng.st = .load → step s = exec .load { s with sched := turns }) ∧
      (s.eng.st = .round → step s = exec .round { s with sched := turns }) ∧
      (s.eng.st = .feed → step s = exec .feed { s with sched := turns })) ∧
    (s.sched = [] → s.eng.st ≠ .idle → step s = exec (decodeSeq s.eng.st.code) s)

/-- R81: a refused access is not admitted: the step stops with the ground, and no state follows. -/
def Obligations.RefusedAccessStops : Prop :=
  ∀ (s : State) (a : Access) (rest : List HostOp) (turns : List Turn),
    s.sched = .host :: turns → s.host = .access a :: rest →
    (a.bits ≠ 32 ∨ a.addr < s.platform.base ∨ (a.addr - s.platform.base) % 4 ≠ 0 ∨ 64 ≤ a.addr - s.platform.base) →
    ∃ r, step s = .refused (.accessRefused r)

/-- An instruction placed as the next to run is what the next step runs: an access at that state, an engine step with
`st` at its code, a round as the ROUND step with i at its index (log 12, 13, the model's own placing). -/
def Obligations.PlacedInstructionRuns : Prop :=
  ∀ (s : State) (i : Instr), i.wf = true →
    match i.row.fmt with
    | .regRead | .regWrite | .cmd => step (s.placeInstr i) = exec i s
    | .seq => step (s.placeInstr i) = exec i (s.withEng { s.eng with st := SeqState.ofCode (i.selector.extractLsb' 0 2) })
    | .round => step (s.placeInstr i) = exec .round (s.withEng { s.eng with st := .round, i := i.selector })

/-! ### Reads -/

/-- R170, R171, R173, R176, R177, R184, R185, R188 to R191, R193: every read completes in every state, returns its
register, and changes nothing else; and its access, at every BASE, is the one the rule encodes. -/
def Obligations.ReadsReturnTheirRegister : Prop :=
  ∀ s : State,
    exec .rdId s = .next { s with rdata := 0x4D443501 } ∧
    exec .rdCtrl s = .next { s with rdata := if s.regs.irqEn then 1 else 0 } ∧
    exec .rdCmd s = .next { s with rdata := 0 } ∧
    exec .rdSrcLo s = .next { s with rdata := BitVec.ofNat 32 (s.regs.src.toNat % 2 ^ 32) } ∧
    exec .rdSrcHi s = .next { s with rdata := BitVec.ofNat 32 (s.regs.src.toNat / 2 ^ 32) } ∧
    exec .rdLenLo s = .next { s with rdata := BitVec.ofNat 32 (s.regs.len.toNat % 2 ^ 32) } ∧
    exec .rdLenHi s = .next { s with rdata := BitVec.ofNat 32 (s.regs.len.toNat / 2 ^ 32) } ∧
    exec .rdDigest0 s = .next { s with rdata := s.regs.digest.w0 } ∧
    exec .rdDigest1 s = .next { s with rdata := s.regs.digest.w1 } ∧
    exec .rdDigest2 s = .next { s with rdata := s.regs.digest.w2 } ∧
    exec .rdDigest3 s = .next { s with rdata := s.regs.digest.w3 } ∧
    (∀ off, exec (.rdRsvd off) s = .next { s with rdata := 0 }) ∧
    ∀ base d,
      decodeAccess base ⟨.read, 32, base + 0x00, d⟩ = .ok .rdId ∧
      decodeAccess base ⟨.read, 32, base + 0x04, d⟩ = .ok .rdCtrl ∧
      decodeAccess base ⟨.read, 32, base + 0x08, d⟩ = .ok .rdCmd ∧
      decodeAccess base ⟨.read, 32, base + 0x10, d⟩ = .ok .rdSrcLo ∧
      decodeAccess base ⟨.read, 32, base + 0x14, d⟩ = .ok .rdSrcHi ∧
      decodeAccess base ⟨.read, 32, base + 0x18, d⟩ = .ok .rdLenLo ∧
      decodeAccess base ⟨.read, 32, base + 0x1C, d⟩ = .ok .rdLenHi ∧
      decodeAccess base ⟨.read, 32, base + 0x20, d⟩ = .ok .rdDigest0 ∧
      decodeAccess base ⟨.read, 32, base + 0x24, d⟩ = .ok .rdDigest1 ∧
      decodeAccess base ⟨.read, 32, base + 0x28, d⟩ = .ok .rdDigest2 ∧
      decodeAccess base ⟨.read, 32, base + 0x2C, d⟩ = .ok .rdDigest3 ∧
      ∀ off : BitVec 6, off &&& 0x33 = 0x30 →
        decodeAccess base ⟨.read, 32, base + off.toNat, d⟩ = .ok (.rdRsvd off)

/-- R174: RD.STATUS, the access `(R, 0x0C, -)`, completes in every state; bit by bit it returns BUSY (`st != IDLE`),
DONE, ERR_CMD, ERR_BUSY, ERR_RANGE, ABORTED, and 0 above; nothing else changes. -/
def Obligations.StatusReadBits : Prop :=
  ∀ s : State, ∃ w : Word, exec .rdStatus s = .next { s with rdata := w } ∧
    w.getLsbD 0 = decide (s.eng.st ≠ .idle) ∧
    w.getLsbD 1 = s.regs.done ∧
    w.getLsbD 2 = s.regs.errCmd ∧
    w.getLsbD 3 = s.regs.errBusy ∧
    w.getLsbD 4 = s.regs.errRange ∧
    w.getLsbD 5 = s.regs.aborted ∧
    (∀ k, 6 ≤ k → w.getLsbD k = false) ∧
    ∀ base d, decodeAccess base ⟨.read, 32, base + 0x0C, d⟩ = .ok .rdStatus

/-! ### Register writes -/

/-- R172: WR.CTRL, the access `(W, 0x04, data)`, stores bit 0 in IRQ_EN and nothing else, and the interrupt line follows
at once as R226 gives it. -/
def Obligations.CtrlWriteSetsIrqEnable : Prop :=
  ∀ (s : State) (d : Word), ∃ t, exec (.wrCtrl d) s = .next t ∧
    t = { s with regs := { s.regs with irqEn := d.getLsbD 0 } } ∧
    (t.irq = true ↔ d.getLsbD 0 = true ∧
      (s.regs.done = true ∨ s.regs.errCmd = true ∨ s.regs.errBusy = true ∨ s.regs.errRange = true ∨
        s.regs.aborted = true)) ∧
    ∀ base, decodeAccess base ⟨.write, 32, base + 0x04, d⟩ = .ok (.wrCtrl d)

/-- R175: WR.STATUS, the access `(W, 0x0C, data)`, clears exactly the sticky flags whose data bit is 1; nothing else changes. -/
def Obligations.StatusWriteClearsNamedFlags : Prop :=
  ∀ (s : State) (d : Word),
    exec (.wrStatus d) s = .next { s with regs := { s.regs with
      done     := if d.getLsbD 1 then false else s.regs.done
      errCmd   := if d.getLsbD 2 then false else s.regs.errCmd
      errBusy  := if d.getLsbD 3 then false else s.regs.errBusy
      errRange := if d.getLsbD 4 then false else s.regs.errRange
      aborted  := if d.getLsbD 5 then false else s.regs.aborted } } ∧
    ∀ base, decodeAccess base ⟨.write, 32, base + 0x0C, d⟩ = .ok (.wrStatus d)

/-- R73: on the STATUS word, a write clears `STATUS & ~(data & 0x3E)`: what RD.STATUS returns after WR.STATUS is what it
returned before with the named bits 5:1 cleared; BUSY and the reserved bits are untouched. -/
def Obligations.StatusWriteOnTheWord : Prop :=
  ∀ (s t u v : State) (d : Word),
    exec .rdStatus s = .next t → exec (.wrStatus d) s = .next u → exec .rdStatus u = .next v →
    v.rdata = t.rdata &&& ~~~(d &&& 0x3E)

/-- R178, R179: WR.SRC_LO and WR.SRC_HI, the accesses at offsets 0x10 and 0x14, replace one half of SRC and store the result modulo 2^ADDR_W; nothing else
changes, src_l of a running operation included. -/
def Obligations.SrcWriteReplacesOneHalf : Prop :=
  ∀ (s : State) (d : Word),
    exec (.wrSrcLo d) s = .next { s with regs := { s.regs with
      src := BitVec.ofNat 64 ((s.regs.src.toNat / 2 ^ 32 * 2 ^ 32 + d.toNat) % 2 ^ s.platform.addrW) } } ∧
    exec (.wrSrcHi d) s = .next { s with regs := { s.regs with
      src := BitVec.ofNat 64 ((d.toNat * 2 ^ 32 + s.regs.src.toNat % 2 ^ 32) % 2 ^ s.platform.addrW) } } ∧
    ∀ base, decodeAccess base ⟨.write, 32, base + 0x10, d⟩ = .ok (.wrSrcLo d) ∧
      decodeAccess base ⟨.write, 32, base + 0x14, d⟩ = .ok (.wrSrcHi d)

/-- R186, R187: WR.LEN_LO and WR.LEN_HI, the accesses at offsets 0x18 and 0x1C, replace one half of LEN, all 64 bits
stored; nothing else changes. -/
def Obligations.LenWriteReplacesOneHalf : Prop :=
  ∀ (s : State) (d : Word),
    exec (.wrLenLo d) s = .next { s with regs := { s.regs with
      len := BitVec.ofNat 64 (s.regs.len.toNat / 2 ^ 32 * 2 ^ 32 + d.toNat) } } ∧
    exec (.wrLenHi d) s = .next { s with regs := { s.regs with
      len := BitVec.ofNat 64 (d.toNat * 2 ^ 32 + s.regs.len.toNat % 2 ^ 32) } } ∧
    ∀ base, decodeAccess base ⟨.write, 32, base + 0x18, d⟩ = .ok (.wrLenLo d) ∧
      decodeAccess base ⟨.write, 32, base + 0x1C, d⟩ = .ok (.wrLenHi d)

/-- R192, R194, R180: WR.ID (offset 0x00), WR.DIGEST (0x20 to 0x2C), WR.RSVD (0x30 to 0x3C) and NOP (a write to CMD with
`data[3:0] = 0`) complete and change nothing, whatever their data. -/
def Obligations.IgnoredWritesChangeNothing : Prop :=
  ∀ (s : State) (d : Word),
    exec (.wrId d) s = .next s ∧ (∀ off, exec (.wrDigest off d) s = .next s) ∧
    (∀ off, exec (.wrRsvd off d) s = .next s) ∧ exec (.nop d) s = .next s ∧
    ∀ base,
      decodeAccess base ⟨.write, 32, base + 0x00, d⟩ = .ok (.wrId d) ∧
      (∀ off : BitVec 6, off &&& 0x33 = 0x20 →
        decodeAccess base ⟨.write, 32, base + off.toNat, d⟩ = .ok (.wrDigest off d)) ∧
      (∀ off : BitVec 6, off &&& 0x33 = 0x30 →
        decodeAccess base ⟨.write, 32, base + off.toNat, d⟩ = .ok (.wrRsvd off d)) ∧
      (d.toNat % 16 = 0 → decodeAccess base ⟨.write, 32, base + 0x08, d⟩ = .ok (.nop d))

/-! ### Commands -/

/-- R181: START, a write to CMD with `data[3:0] = 1`. Busy: ERR_BUSY and nothing else. Idle with SRC + LEN > 2^ADDR_W: ERR_RANGE and nothing else. Otherwise
it is accepted: the parameters are latched, h is IV, j is 0, DONE and ABORTED are cleared, st is LOAD, and nothing else
changes (what becomes of `torn`, the model's own record, is said in `Obligations.TornMarksMessageWrites`). -/
def Obligations.StartCommand : Prop :=
  ∀ (s : State) (d : Word),
    (s.eng.st ≠ .idle → exec (.start d) s = .next { s with regs := { s.regs with errBusy := true } }) ∧
    (s.eng.st = .idle → 2 ^ s.platform.addrW < s.regs.src.toNat + s.regs.len.toNat →
      exec (.start d) s = .next { s with regs := { s.regs with errRange := true } }) ∧
    (s.eng.st = .idle → s.regs.src.toNat + s.regs.len.toNat ≤ 2 ^ s.platform.addrW →
      ∃ (n : BitVec 59) (b : Bool), n.toNat = (s.regs.len.toNat + 8) / 64 + 1 ∧
        exec (.start d) s = .next { s with
          regs := { s.regs with done := false, aborted := false }
          eng  := { s.eng with
            srcL := s.regs.src
            nL   := s.regs.len
            lL   := BitVec.ofNat 64 (8 * s.regs.len.toNat % 2 ^ 64)
            nblk := n
            h    := ⟨0x67452301, 0xEFCDAB89, 0x98BADCFE, 0x10325476⟩
            j    := 0
            st   := .load }
          torn := b }) ∧
    (d.toNat % 16 = 1 → ∀ base, decodeAccess base ⟨.write, 32, base + 0x08, d⟩ = .ok (.start d))

/-- R182: ABORT, a write to CMD with `data[3:0] = 2`: while busy it sets st to IDLE and ABORTED to 1 and changes nothing else; while idle it has no effect. -/
def Obligations.AbortCommand : Prop :=
  ∀ (s : State) (d : Word),
    (s.eng.st ≠ .idle → exec (.abort d) s =
      .next { s with regs := { s.regs with aborted := true }, eng := { s.eng with st := .idle } }) ∧
    (s.eng.st = .idle → exec (.abort d) s = .next s) ∧
    (d.toNat % 16 = 2 → ∀ base, decodeAccess base ⟨.write, 32, base + 0x08, d⟩ = .ok (.abort d))

/-- R183: a reserved opcode, `data[3:0]` in 0x3 to 0xF, in each of its three rows, sets ERR_CMD and changes nothing else,
busy or idle. -/
def Obligations.ReservedCommandsSetErrCmd : Prop :=
  ∀ (s : State) (d : Word),
    exec (.cmdRsvd3 d) s = .next { s with regs := { s.regs with errCmd := true } } ∧
    exec (.cmdRsvd47 d) s = .next { s with regs := { s.regs with errCmd := true } } ∧
    exec (.cmdRsvd8F d) s = .next { s with regs := { s.regs with errCmd := true } } ∧
    ∀ base,
      (d.toNat % 16 = 3 → decodeAccess base ⟨.write, 32, base + 0x08, d⟩ = .ok (.cmdRsvd3 d)) ∧
      (4 ≤ d.toNat % 16 → d.toNat % 16 ≤ 7 →
        decodeAccess base ⟨.write, 32, base + 0x08, d⟩ = .ok (.cmdRsvd47 d)) ∧
      (8 ≤ d.toNat % 16 → decodeAccess base ⟨.write, 32, base + 0x08, d⟩ = .ok (.cmdRsvd8F d))

/-- R224: one access raises at most one cause, and none but a command raises one: ERR_CMD only a reserved opcode, ERR_BUSY
only a START while busy, ERR_RANGE only a START while idle (the busy check comes first) that is out of range, ABORTED
only an ABORT while busy; no access raises DONE. -/
def Obligations.OneAccessRaisesAtMostOneCause : Prop :=
  ∀ (i : Instr) (s t : State), i.row.fmt ≠ .seq → i.row.fmt ≠ .round → exec i s = .next t →
    (t.regs.done = true → s.regs.done = true) ∧
    [!s.regs.errCmd && t.regs.errCmd, !s.regs.errBusy && t.regs.errBusy, !s.regs.errRange && t.regs.errRange,
      !s.regs.aborted && t.regs.aborted].count true ≤ 1 ∧
    (s.regs.errCmd = false → t.regs.errCmd = true → ∃ d, i = .cmdRsvd3 d ∨ i = .cmdRsvd47 d ∨ i = .cmdRsvd8F d) ∧
    (s.regs.errBusy = false → t.regs.errBusy = true → s.eng.st ≠ .idle ∧ ∃ d, i = .start d) ∧
    (s.regs.errRange = false → t.regs.errRange = true → s.eng.st = .idle ∧
      2 ^ s.platform.addrW < s.regs.src.toNat + s.regs.len.toNat ∧ ∃ d, i = .start d) ∧
    (s.regs.aborted = false → t.regs.aborted = true → s.eng.st ≠ .idle ∧ ∃ d, i = .abort d)

/-- R195: every access completes in every state, and an ABORT is the only access that changes a running operation: any
other leaves the whole internal state of a busy engine as it was. -/
def Obligations.OnlyAbortChangesARunningOperation : Prop :=
  ∀ (i : Instr) (s : State), i.row.fmt ≠ .seq → i.row.fmt ≠ .round →
    ∃ t, exec i s = .next t ∧ (s.eng.st ≠ .idle → (∀ d, i ≠ .abort d) → t.eng = s.eng ∧ t.torn = s.torn)

/-! ### The STATUS flags over the whole machine -/

/-- R24, R227: the error flags are sticky. Over one step of anything, an error flag falls only by a host write of 1 to
its STATUS bit or by reset. -/
def Obligations.ErrorFlagsFallOnlyWhenAcknowledged : Prop :=
  ∀ s t : State, step s = .next t →
    (s.regs.errCmd = true ∧ t.regs.errCmd = false) ∨ (s.regs.errBusy = true ∧ t.regs.errBusy = false) ∨
      (s.regs.errRange = true ∧ t.regs.errRange = false) →
    s.nextTurn = .reset ∨
    ∃ a rest d, s.nextTurn = .host ∧ s.host = .access a :: rest ∧
      decodeAccess s.platform.base a = .ok (.wrStatus d) ∧
      (t.regs.errCmd = if d.getLsbD 2 then false else s.regs.errCmd) ∧
      (t.regs.errBusy = if d.getLsbD 3 then false else s.regs.errBusy) ∧
      (t.regs.errRange = if d.getLsbD 4 then false else s.regs.errRange)

/-- R223: DONE rises only in the completion step: the engine's turn in FEED at the last block. -/
def Obligations.DoneRisesOnlyAtCompletion : Prop :=
  ∀ s t : State, step s = .next t → s.regs.done = false → t.regs.done = true →
    s.nextTurn = .engine ∧ s.eng.st = .feed ∧ s.eng.j.toNat + 1 = s.eng.nblk.toNat ∧ t.eng.st = .idle

/-- R73: BUSY rises only by an accepted START (the host's write to CMD of opcode 1 while idle and in range), and falls
only by completion, by ABORT or by reset. -/
def Obligations.BusyRisesByStartFallsByEnd : Prop :=
  ∀ s t : State, step s = .next t →
    (s.eng.st = .idle → t.eng.st ≠ .idle →
      ∃ a rest d, s.nextTurn = .host ∧ s.host = .access a :: rest ∧ decodeAccess s.platform.base a = .ok (.start d) ∧
        s.regs.src.toNat + s.regs.len.toNat ≤ 2 ^ s.platform.addrW) ∧
    (s.eng.st ≠ .idle → t.eng.st = .idle →
      (s.nextTurn = .engine ∧ s.eng.st = .feed ∧ s.eng.j.toNat + 1 = s.eng.nblk.toNat) ∨
      (∃ a rest d, s.nextTurn = .host ∧ s.host = .access a :: rest ∧
        decodeAccess s.platform.base a = .ok (.abort d)) ∨
      s.nextTurn = .reset)

/-- R256: DIGEST0..3 change only in a completion step or at reset. -/
def Obligations.DigestChangesOnlyAtCompletionOrReset : Prop :=
  ∀ s t : State, step s = .next t → t.regs.digest ≠ s.regs.digest →
    s.nextTurn = .reset ∨
    (s.nextTurn = .engine ∧ s.eng.st = .feed ∧ s.eng.j.toNat + 1 = s.eng.nblk.toNat ∧ t.regs.done = true)

/-! ### The algorithm -/

/-- R131 to R134: the mixing functions, bit by bit. -/
def Obligations.MixingFunctionsBitwise : Prop :=
  ∀ (b c d : Word) (k : Nat), k < 32 →
    (mixF b c d).getLsbD k = (if b.getLsbD k then c.getLsbD k else d.getLsbD k) ∧
    (mixG b c d).getLsbD k = (if d.getLsbD k then b.getLsbD k else c.getLsbD k) ∧
    (mixH b c d).getLsbD k = ((b.getLsbD k).xor (c.getLsbD k)).xor (d.getLsbD k) ∧
    (mixI b c d).getLsbD k = (c.getLsbD k).xor (b.getLsbD k || !d.getLsbD k)

/-- R10: rotl is the circular shift: bit k of the result is bit (k - s) mod 32 of x. -/
def Obligations.RotlIsCircular : Prop :=
  ∀ (x : Word) (s k : Nat), s ≤ 31 → k < 32 → (rotl x s).getLsbD k = x.getLsbD ((k + 32 - s) % 32)

/-- R141 to R144: each round row is the row of the indices of its phase, and completes for each: the simultaneous update
of a, b, c, d with the phase's function and word index, and nothing else changes. -/
def Obligations.RoundRows : Prop :=
  ∀ (s : State) (i : BitVec 6) (a b c d : Word), s.eng.v = ⟨a, b, c, d⟩ →
    ((h : i.toNat < 16) → decodeRound i = .roundF i ∧ exec (.roundF i) s = .next { s with eng := { s.eng with v :=
      ⟨d, b + rotl (a + ((b &&& c) ||| (~~~b &&& d)) + kConst i + s.eng.mblk[i.toNat]) (rotateAmount i), b, c⟩ } }) ∧
    (16 ≤ i.toNat → i.toNat < 32 → decodeRound i = .roundG i ∧ exec (.roundG i) s = .next { s with eng := { s.eng with v :=
      ⟨d, b + rotl (a + ((d &&& b) ||| (~~~d &&& c)) + kConst i + s.eng.mblk[(5 * i.toNat + 1) % 16]) (rotateAmount i),
        b, c⟩ } }) ∧
    (32 ≤ i.toNat → i.toNat < 48 → decodeRound i = .roundH i ∧ exec (.roundH i) s = .next { s with eng := { s.eng with v :=
      ⟨d, b + rotl (a + (b ^^^ c ^^^ d) + kConst i + s.eng.mblk[(3 * i.toNat + 5) % 16]) (rotateAmount i), b, c⟩ } }) ∧
    (48 ≤ i.toNat → decodeRound i = .roundI i ∧ exec (.roundI i) s = .next { s with eng := { s.eng with v :=
      ⟨d, b + rotl (a + (c ^^^ (b ||| ~~~d)) + kConst i + s.eng.mblk[(7 * i.toNat) % 16]) (rotateAmount i), b, c⟩ } })

/-- R135, R137 to R139: the constants that the round rows and the algorithm name, against the spec's own table: for every i
the word index g(i), the rotate amount R[i] and the additive constant K[i], and the initial value IV. The values of IV, K
and R are the spec's from general knowledge, not the source's (log 20). -/
def Obligations.ConstantsAreTheTable : Prop :=
  iv = ⟨0x67452301, 0xEFCDAB89, 0x98BADCFE, 0x10325476⟩ ∧
  let row := fun i : BitVec 6 => ((wordIndex i).val, rotateAmount i, kConst i)
  (List.range 16).map (fun k => row (BitVec.ofNat 6 k)) =
    [(0, 7, 0xD76AA478), (1, 12, 0xE8C7B756), (2, 17, 0x242070DB), (3, 22, 0xC1BDCEEE),
     (4, 7, 0xF57C0FAF), (5, 12, 0x4787C62A), (6, 17, 0xA8304613), (7, 22, 0xFD469501),
     (8, 7, 0x698098D8), (9, 12, 0x8B44F7AF), (10, 17, 0xFFFF5BB1), (11, 22, 0x895CD7BE),
     (12, 7, 0x6B901122), (13, 12, 0xFD987193), (14, 17, 0xA679438E), (15, 22, 0x49B40821)] ∧
  (List.range 16).map (fun k => row (BitVec.ofNat 6 (16 + k))) =
    [(1, 5, 0xF61E2562), (6, 9, 0xC040B340), (11, 14, 0x265E5A51), (0, 20, 0xE9B6C7AA),
     (5, 5, 0xD62F105D), (10, 9, 0x02441453), (15, 14, 0xD8A1E681), (4, 20, 0xE7D3FBC8),
     (9, 5, 0x21E1CDE6), (14, 9, 0xC33707D6), (3, 14, 0xF4D50D87), (8, 20, 0x455A14ED),
     (13, 5, 0xA9E3E905), (2, 9, 0xFCEFA3F8), (7, 14, 0x676F02D9), (12, 20, 0x8D2A4C8A)] ∧
  (List.range 16).map (fun k => row (BitVec.ofNat 6 (32 + k))) =
    [(5, 4, 0xFFFA3942), (8, 11, 0x8771F681), (11, 16, 0x6D9D6122), (14, 23, 0xFDE5380C),
     (1, 4, 0xA4BEEA44), (4, 11, 0x4BDECFA9), (7, 16, 0xF6BB4B60), (10, 23, 0xBEBFBC70),
     (13, 4, 0x289B7EC6), (0, 11, 0xEAA127FA), (3, 16, 0xD4EF3085), (6, 23, 0x04881D05),
     (9, 4, 0xD9D4D039), (12, 11, 0xE6DB99E5), (15, 16, 0x1FA27CF8), (2, 23, 0xC4AC5665)] ∧
  (List.range 16).map (fun k => row (BitVec.ofNat 6 (48 + k))) =
    [(0, 6, 0xF4292244), (7, 10, 0x432AFF97), (14, 15, 0xAB9423A7), (5, 21, 0xFC93A039),
     (12, 6, 0x655B59C3), (3, 10, 0x8F0CCC92), (10, 15, 0xFFEFF47D), (1, 21, 0x85845DD1),
     (8, 6, 0x6FA87E4F), (15, 10, 0xFE2CE6E0), (6, 15, 0xA3014314), (13, 21, 0x4E0811A1),
     (4, 6, 0xF7537E82), (11, 10, 0xBD3AF235), (2, 15, 0x2AD7D2BB), (9, 21, 0xEB86D391)]

/-- R102, R107: the padded buffer of any message: its length is 64 times the block count, it begins with the
message and the marker, its last 8 bytes are the bit length, least significant byte first, and every byte between is
0. -/
def Obligations.PaddedBufferShape : Prop :=
  ∀ msg : List Byte,
    (pad msg).length = 64 * ((msg.length + 8) / 64 + 1) ∧
    (pad msg).take msg.length = msg ∧
    (pad msg)[msg.length]? = some 0x80 ∧
    (∀ k, msg.length < k → k < (pad msg).length - 8 → (pad msg)[k]? = some 0) ∧
    (∀ t, t < 8 → (pad msg)[(pad msg).length - 8 + t]? = some (BitVec.ofNat 8 (8 * msg.length / 256 ^ t)))

/-- R105: the byte the hardware forms is the byte of the padded buffer of the latched message, for every index below
64 nblk, in every state whose parameters are those an accepted START latched. -/
def Obligations.PaddedByteIsByteOfBuffer : Prop :=
  ∀ (s : State) (k : Nat), Latched s.platform s.eng → k < 64 * s.eng.nblk.toNat →
    (pad s.message)[k]? = some (padByte s.eng s.mem k)

/-- R161: digest byte 4k + t is byte t of DIGESTk, least significant first; there are 16 of them. -/
def Obligations.DigestByteOrder : Prop :=
  ∀ q : Quad, (digestBytes q).length = 16 ∧
    ∀ t, t < 4 →
      (digestBytes q)[t]? = some (BitVec.ofNat 8 (q.w0.toNat / 256 ^ t)) ∧
      (digestBytes q)[4 + t]? = some (BitVec.ofNat 8 (q.w1.toNat / 256 ^ t)) ∧
      (digestBytes q)[8 + t]? = some (BitVec.ofNat 8 (q.w2.toNat / 256 ^ t)) ∧
      (digestBytes q)[12 + t]? = some (BitVec.ofNat 8 (q.w3.toNat / 256 ^ t))

/-- R162, R163: the text has 32 characters; characters 2m and 2m + 1 are the lowercase hexadecimal digits of D[m], high
nibble first; and the whole is the four byte-reversed words written as 8-digit numerals, most significant digit
first. -/
def Obligations.TextRendering : Prop :=
  ∀ q : Quad,
    (hexText q).length = 32 ∧
    (∀ m (h : m < (digestBytes q).length),
      (hexText q)[2 * m]? = "0123456789abcdef".toList[((digestBytes q)[m]).toNat / 16]? ∧
      (hexText q)[2 * m + 1]? = "0123456789abcdef".toList[((digestBytes q)[m]).toNat % 16]?) ∧
    hexText q = hexNumeral (byteReverse q.w0) ++ hexNumeral (byteReverse q.w1) ++ hexNumeral (byteReverse q.w2) ++
      hexNumeral (byteReverse q.w3)

/-! ### The engine's steps -/

/-- R200: the row IDLE completes and changes nothing. -/
def Obligations.IdleTakesNoStep : Prop :=
  ∀ s : State, s.eng.st = .idle → exec .idle s = .next s ∧ ∀ turns, s.sched = .engine :: turns →
    step s = .next { s with sched := turns }

/-- R201: LOAD, the row of code 1, completes wherever the message is ordinary memory and its range lies in memory: word w of Mblk is
`LE32` of the padded bytes 64j + 4w to 64j + 4w + 3, (a, b, c, d) are h0..h3, i is 0, st is ROUND; nothing else
changes. -/
def Obligations.LoadStep : Prop :=
  ∀ s : State, (∀ d ∈ s.platform.devices, rangesMeet d.1 d.2 s.eng.srcL.toNat s.eng.nL.toNat = false) →
    s.eng.srcL.toNat + s.eng.nL.toNat ≤ 2 ^ s.platform.addrW →
    decodeSeq 1 = .load ∧ ∃ w : Vector Word 16,
      exec .load s = .next { s with eng := { s.eng with mblk := w, v := s.eng.h, i := 0, st := .round } } ∧
      ∀ k (h : k < 16), w[k] = le32 (padByte s.eng s.mem (64 * s.eng.j.toNat + 4 * k))
        (padByte s.eng s.mem (64 * s.eng.j.toNat + 4 * k + 1)) (padByte s.eng s.mem (64 * s.eng.j.toNat + 4 * k + 2))
        (padByte s.eng s.mem (64 * s.eng.j.toNat + 4 * k + 3))

/-- R52: LOAD reads no address outside the message: memories that agree on src_l .. src_l + n_l - 1 give the same
internal state, or the same stop. -/
def Obligations.LoadReadsOnlyTheMessage : Prop :=
  ∀ (s : State) (m : Memory),
    (∀ k, k < s.eng.nL.toNat → Memory.read m (s.eng.srcL.toNat + k) = Memory.read s.mem (s.eng.srcL.toNat + k)) →
    exec .load { s with mem := m } = mapNext (fun t => { t with mem := m }) (exec .load s)

/-- R246, R8: where LOAD stops: a message range that includes an address whose read has a side effect is a fault of the
platform; otherwise a message byte of the block at or above 2^ADDR_W does not exist (log 9, 10: at which step the model
stops is its choice). -/
def Obligations.LoadStops : Prop :=
  ∀ s : State,
    (∀ d ∈ s.platform.devices, ∀ x, d.1 ≤ x → x < d.1 + d.2 → s.eng.srcL.toNat ≤ x →
      x < s.eng.srcL.toNat + s.eng.nL.toNat → exec .load s = .fault .sideEffectRead) ∧
    ((∀ d ∈ s.platform.devices, rangesMeet d.1 d.2 s.eng.srcL.toNat s.eng.nL.toNat = false) →
      ∀ k, 64 * s.eng.j.toNat ≤ k → k < 64 * s.eng.j.toNat + 64 → k < s.eng.nL.toNat →
        2 ^ s.platform.addrW ≤ s.eng.srcL.toNat + k → exec .load s = .fault .addressOutsideMemory)

/-- R202, R140: ROUND completes in every state: (a, b, c, d) become those of round i, then i is incremented, or after
round 63 stays 63 and st becomes FEED; nothing else changes. -/
def Obligations.RoundStep : Prop :=
  ∀ s : State,
    (s.eng.i ≠ 63 → exec .round s = .next { s with eng := { s.eng with
      v := roundAt s.eng.i s.eng.v s.eng.mblk, i := BitVec.ofNat 6 (s.eng.i.toNat + 1) } }) ∧
    (s.eng.i = 63 → exec .round s = .next { s with eng := { s.eng with
      v := roundAt s.eng.i s.eng.v s.eng.mblk, st := .feed } })

/-- R202: ROUND, the row of code 2, completes in every state: the round row that the phase `i[5:4]` selects, then i is
incremented, or after round 63 st becomes FEED. -/
def Obligations.RoundStepRunsItsPhaseRow : Prop :=
  decodeSeq 2 = .round ∧
  ∀ s : State, ∃ t,
    (s.eng.i.extractLsb' 4 2 = 0 → exec (.roundF s.eng.i) s = .next t) ∧
    (s.eng.i.extractLsb' 4 2 = 1 → exec (.roundG s.eng.i) s = .next t) ∧
    (s.eng.i.extractLsb' 4 2 = 2 → exec (.roundH s.eng.i) s = .next t) ∧
    (s.eng.i.extractLsb' 4 2 = 3 → exec (.roundI s.eng.i) s = .next t) ∧
    exec .round s = .next (if s.eng.i = 63 then { t with eng := { t.eng with st := .feed } }
      else { t with eng := { t.eng with i := t.eng.i + 1 } })

/-- R203, R204, R205: FEED, the row of code 3, completes in every state: the feedback, then, at the last block of a message that was not
written meanwhile, DIGEST0..3 are the new h, DONE is 1 and st is IDLE; at any other block j is incremented and st is
LOAD. Nothing else changes. -/
def Obligations.FeedStep : Prop :=
  ∀ (s : State) (h : Quad),
    h = ⟨s.eng.h.w0 + s.eng.v.w0, s.eng.h.w1 + s.eng.v.w1, s.eng.h.w2 + s.eng.v.w2, s.eng.h.w3 + s.eng.v.w3⟩ →
    decodeSeq 3 = .feed ∧
    (s.eng.j.toNat + 1 = s.eng.nblk.toNat → s.torn = false →
      exec .feed s = .next { s with
        regs := { s.regs with done := true, digest := h }, eng := { s.eng with h := h, st := .idle } }) ∧
    (s.eng.j.toNat + 1 ≠ s.eng.nblk.toNat →
      exec .feed s = .next { s with eng := { s.eng with h := h, j := s.eng.j + 1, st := .load } })

/-- R245, R205: the completion of an operation whose message was written while it ran: every effect is as usual but
DIGEST0..3 are four free words, one draw, whatever the draw (log 7). -/
def Obligations.TornCompletionDrawsTheDigest : Prop :=
  ∀ s : State, s.torn = true → s.eng.j.toNat + 1 = s.eng.nblk.toNat →
    ∃ q : Quad, q.w3 ++ q.w2 ++ q.w1 ++ q.w0 = Config.freeDigest s.draws ∧
      exec .feed s = .next { s with
        regs  := { s.regs with done := true, digest := q }
        eng   := { s.eng with h := s.eng.h.add s.eng.v, st := .idle }
        draws := s.draws + 1 }

/-- R211: the frame of the engine's rows: none writes CTRL, SRC, LEN, an error flag, ABORTED or a byte of the
message memory, nor the platform, the host, the schedule or the data of the last read. -/
def Obligations.EngineRowsFrame : Prop :=
  ∀ (i : Instr) (s t : State), i.row.fmt = .seq ∨ i.row.fmt = .round → exec i s = .next t →
    t.regs.irqEn = s.regs.irqEn ∧ t.regs.src = s.regs.src ∧ t.regs.len = s.regs.len ∧
    t.regs.errCmd = s.regs.errCmd ∧ t.regs.errBusy = s.regs.errBusy ∧ t.regs.errRange = s.regs.errRange ∧
    t.regs.aborted = s.regs.aborted ∧ (∀ x, Memory.read t.mem x = Memory.read s.mem x) ∧ t.platform = s.platform ∧
    t.host = s.host ∧ t.sched = s.sched ∧ t.rdata = s.rdata ∧ t.torn = s.torn ∧
    t.eng.srcL = s.eng.srcL ∧ t.eng.nL = s.eng.nL ∧ t.eng.lL = s.eng.lL ∧ t.eng.nblk = s.eng.nblk

/-- R52, R58: no instruction writes the message memory, and a read access writes nothing but the data it returns. -/
def Obligations.AccessesFrame : Prop :=
  ∀ (i : Instr) (s t : State), exec i s = .next t →
    (∀ x, Memory.read t.mem x = Memory.read s.mem x) ∧ t.platform = s.platform ∧ t.host = s.host ∧
    t.sched = s.sched ∧
    (i.row.fmt = .regRead → t.regs = s.regs ∧ t.eng = s.eng ∧ t.torn = s.torn ∧ t.draws = s.draws) ∧
    (i.row.fmt = .regWrite → t.eng = s.eng ∧ t.rdata = s.rdata ∧ t.regs.digest = s.regs.digest) ∧
    (i.row.fmt = .cmd → t.rdata = s.rdata ∧ t.regs.digest = s.regs.digest ∧ t.regs.irqEn = s.regs.irqEn ∧
      t.regs.src = s.regs.src ∧ t.regs.len = s.regs.len)

/-! ### The surroundings -/

/-- R240, R241: the reset input in one step: every register with a reset value holds it, also when the engine was busy;
STATUS reads 0, ID its constant, and irq is 0; the message memory is not touched. -/
def Obligations.ResetInputStep : Prop :=
  ∀ (s : State) (turns : List Turn), s.sched = .reset :: turns →
    ∃ t, step s = .next t ∧
      t.regs.irqEn = false ∧ t.regs.done = false ∧ t.regs.errCmd = false ∧ t.regs.errBusy = false ∧
      t.regs.errRange = false ∧ t.regs.aborted = false ∧ t.regs.src = 0 ∧ t.regs.len = 0 ∧
      t.regs.digest = ⟨0, 0, 0, 0⟩ ∧ t.eng.st = .idle ∧ t.irq = false ∧ t.observe .rdStatus = some 0 ∧
      t.observe .rdId = some 0x4D443501 ∧ (∀ x, Memory.read t.mem x = Memory.read s.mem x) ∧
      t.platform = s.platform

/-- R240: the machine's reset state has the reset values of the table (the platform, the empty memory and the empty
program are the model's choice, log 1, 3, 5, and not part of this statement). -/
def Obligations.ResetStateValues : Prop :=
  State.reset.regs.irqEn = false ∧ State.reset.regs.src = 0 ∧ State.reset.regs.len = 0 ∧
  State.reset.regs.digest = ⟨0, 0, 0, 0⟩ ∧ State.reset.eng.st = .idle ∧ State.reset.irq = false ∧
  State.reset.observe .rdStatus = some 0 ∧ State.reset.observe .rdCtrl = some 0

/-- R56, R63, R245: a write of the message memory by another agent or by the host: each byte written reads back, every
other byte is unchanged, no register changes, and the running operation is marked exactly when one of its message bytes
was written. Past 2^ADDR_W there is no memory to write (log 7, 10, 26, the model's form of these). The premise is the
canonical form of the memory, which every step keeps (`Obligations.StepKeepsInvariant`). -/
def Obligations.MessageWriteStep : Prop :=
  ∀ (s : State) (a : Nat) (bytes : List Byte) (turns : List Turn) (rest : List HostOp),
    Memory.wf s.mem = true →
    (s.sched = .agent a bytes :: turns ∧ s.host = rest ∨
      s.sched = .host :: turns ∧ s.host = .memWrite a bytes :: rest) →
    (bytes ≠ [] → 2 ^ s.platform.addrW < a + bytes.length → step s = .fault .addressOutsideMemory) ∧
    (a + bytes.length ≤ 2 ^ s.platform.addrW →
      ∃ t, step s = .next t ∧
        (∀ k (h : k < bytes.length), Memory.read t.mem (a + k) = bytes[k]) ∧
        (∀ x, x < a ∨ a + bytes.length ≤ x → Memory.read t.mem x = Memory.read s.mem x) ∧
        t.regs = s.regs ∧ t.eng = s.eng ∧ t.platform = s.platform ∧ t.host = rest ∧ t.sched = turns ∧
        t.rdata = s.rdata ∧ t.draws = s.draws ∧
        (t.torn = true ↔ s.torn = true ∨
          (s.eng.st ≠ .idle ∧ ∃ k, k < bytes.length ∧ s.eng.srcL.toNat ≤ a + k ∧
            a + k < s.eng.srcL.toNat + s.eng.nL.toNat)))

/-- R245: the record of a message byte written while the operation runs (`torn`, the model's own field, log 7), over one
step of anything. It rises by a write, while the engine is busy, of a byte of the latched message, and by nothing else;
after an accepted START and after reset it is false, so that no old mark reaches a new operation, and it falls by nothing
else. -/
def Obligations.TornMarksMessageWrites : Prop :=
  ∀ s t : State, step s = .next t →
    (s.torn = false → t.torn = true → s.eng.st ≠ .idle ∧ ∃ a bytes,
      (s.nextTurn = .agent a bytes ∨ s.nextTurn = .host ∧ ∃ rest, s.host = .memWrite a bytes :: rest) ∧
      ∃ k, k < bytes.length ∧ s.eng.srcL.toNat ≤ a + k ∧ a + k < s.eng.srcL.toNat + s.eng.nL.toNat) ∧
    (∀ a bytes k, s.eng.st ≠ .idle →
      (s.nextTurn = .agent a bytes ∨ s.nextTurn = .host ∧ ∃ rest, s.host = .memWrite a bytes :: rest) →
      k < bytes.length → s.eng.srcL.toNat ≤ a + k → a + k < s.eng.srcL.toNat + s.eng.nL.toNat → t.torn = true) ∧
    (s.torn = true → t.torn = false →
      s.nextTurn = .reset ∨ (s.eng.st = .idle ∧ t.eng.st = .load ∧ ∃ a rest d, s.nextTurn = .host ∧
        s.host = .access a :: rest ∧ decodeAccess s.platform.base a = .ok (.start d))) ∧
    (∀ a rest d, s.nextTurn = .host → s.host = .access a :: rest → decodeAccess s.platform.base a = .ok (.start d) →
      s.eng.st = .idle → s.regs.src.toNat + s.regs.len.toNat ≤ 2 ^ s.platform.addrW → t.torn = false) ∧
    (s.nextTurn = .reset → t.torn = false)

/-- R83: one iteration of POLL is one read; the host goes on exactly when the masked value matches. -/
def Obligations.PollReadsUntilItMatches : Prop :=
  ∀ (s : State) (addr : Nat) (mask value : Word) (rest : List HostOp) (turns : List Turn) (i : Instr) (t : State),
    s.sched = .host :: turns → s.host = .poll addr mask value :: rest →
    decodeAccess s.platform.base ⟨.read, 32, addr, 0⟩ = .ok i → exec i { s with sched := turns } = .next t →
    step s = .next { t with host := if t.rdata &&& mask = value then rest else s.host }

/-- R83, R178, R179: SETSRC, run from an idle engine with nothing scheduled, sets SRC to the address modulo 2^ADDR_W in
two accesses; SETLEN sets LEN; the host then goes on with the rest of its program. -/
def Obligations.SetSrcAndSetLenExpand : Prop :=
  ∀ (s : State) (x : DWord) (rest : List HostOp), s.sched = [] → s.eng.st = .idle →
    (s.host = (Line.setSrc x).expand s.platform.base ++ rest →
      Host.Core.run core 2 s = .next { s with
        regs := { s.regs with src := BitVec.ofNat 64 (x.toNat % 2 ^ s.platform.addrW) }, host := rest }) ∧
    (s.host = (Line.setLen x).expand s.platform.base ++ rest →
      Host.Core.run core 2 s = .next { s with regs := { s.regs with len := x }, host := rest })

/-- R6, R7, R41: no step changes the platform's parameters. -/
def Obligations.PlatformNeverChanges : Prop :=
  ∀ s t : State, step s = .next t → t.platform = s.platform

/-! ### Invariants, isolation and the headline -/

/-- R42: the invariants hold at the reset state, whose platform, empty memory and internal values are the model's choice
(log 1, 2, 3). -/
def Obligations.InvariantAtReset : Prop := Inv State.reset ∧ OnTrack State.reset

/-- R42, R31, R35, R8: the invariant is kept by every step from every state that meets it: SRC stays below 2^ADDR_W, the
latched parameters stay consistent and j below nblk while busy, and the memory stays canonical and inside 2^ADDR_W. -/
def Obligations.StepKeepsInvariant : Prop :=
  ∀ s t : State, Inv s → step s = .next t → Inv t

/-- R42, R147: every step, of whichever agent, keeps the engine on track: while busy and unmarked, h0..h3 are the running
state of the blocks before j, Mblk is block j in ROUND and FEED, and a..d are the working variables after the rounds
done. -/
def Obligations.StepKeepsOnTrack : Prop :=
  ∀ s t : State, Inv s → OnTrack s → step s = .next t → OnTrack t

/-- R207, R148: whatever was interleaved, the completion step of an operation whose message was not written meanwhile
leaves DIGEST0..3 = MD5State(M), M being the latched message. -/
def Obligations.CompletionLeavesMd5State : Prop :=
  ∀ s : State, Inv s → OnTrack s → s.torn = false → s.eng.st = .feed → s.eng.j.toNat + 1 = s.eng.nblk.toNat →
    ∃ t, exec .feed s = .next t ∧ t.regs.digest = md5State s.message ∧ t.regs.done = true ∧ t.eng.st = .idle

/-- R206, R207, R209, R254: an accepted START whose message is ordinary memory, followed by engine steps alone (an
empty schedule and the default turns, log 5, the model's choice), completes after exactly 66 nblk steps: before, the
engine is busy with DIGEST0..3 unchanged; then it is idle, DONE is 1, ABORTED is 0, and DIGEST0..3 = MD5State(M). -/
def Obligations.OperationCompletesWithMd5 : Prop :=
  ∀ (s : State) (d : Word), s.sched = [] → s.eng.st = .idle →
    s.regs.src.toNat + s.regs.len.toNat ≤ 2 ^ s.platform.addrW →
    (∀ x ∈ s.platform.devices, rangesMeet x.1 x.2 s.regs.src.toNat s.regs.len.toNat = false) →
    ∃ t, exec (.start d) s = .next t ∧
      (∀ k, k < 66 * ((s.regs.len.toNat + 8) / 64 + 1) →
        ∃ u, Host.Core.run core k t = .next u ∧ u.eng.st ≠ .idle ∧ u.regs.digest = s.regs.digest) ∧
      ∃ u, Host.Core.run core (66 * ((s.regs.len.toNat + 8) / 64 + 1)) t = .next u ∧
        u.eng.st = .idle ∧ u.regs.done = true ∧ u.regs.aborted = false ∧
        u.regs.digest = md5State ((List.range s.regs.len.toNat).map fun k =>
          Memory.read s.mem (s.regs.src.toNat + k)) ∧
        u.regs.src = s.regs.src ∧ u.regs.len = s.regs.len ∧ u.regs.errCmd = s.regs.errCmd ∧
        u.regs.errBusy = s.regs.errBusy ∧ u.regs.errRange = s.regs.errRange

/-- R17: the internal state cannot be observed: two states that differ in it alone, and not in whether the engine is
busy, return the same data to every read and have the same irq. -/
def Obligations.InternalStateCannotBeObserved : Prop :=
  ∀ (s : State) (e : Engine), (e.st = .idle ↔ s.eng.st = .idle) →
    (∀ i : Instr, i.row.fmt = .regRead → (s.withEng e).observe i = s.observe i) ∧ (s.withEng e).irq = s.irq

/-- R45, R210: what the internal registers held before does not matter: from two idle engines, an accepted START and the
LOAD of its first block lead to the same state, whatever they held. -/
def Obligations.StaleInternalsAreForgotten : Prop :=
  ∀ (s t u : State) (e : Engine) (d : Word), s.eng.st = .idle → e.st = .idle →
    s.regs.src.toNat + s.regs.len.toNat ≤ 2 ^ s.platform.addrW →
    exec (.start d) s = .next t → exec (.start d) (s.withEng e) = .next u →
    exec .load t = exec .load u
end

