-- ==== Sys2Proof/Laws/Decode.lean ====
section
/-! SUPPORT. What each decoder answers, and what it answers for the selector of a well-formed instruction. -/

namespace Sys2Proof

open Machine

/-! ### What a decoder answers is well-formed and carries what was given -/

/-- The decoder of reads: an aligned offset is one row, whose selector is the offset. -/
theorem decodeRead_spec (off : BitVec 6) (h : off.toNat % 4 = 0) :
    ∃ i, decodeRead off = .ok i ∧ i.wf = true ∧ i.row.fmt = .regRead ∧ i.selector = off ∧ i.data = 0 := by
  have key : ∀ off : BitVec 6, off.toNat % 4 = 0 →
      (match decodeRead off with
        | .ok i => i.wf && decide (i.row.fmt = .regRead) && decide (i.selector = off) && decide (i.data = 0)
        | .error _ => false) = true := by decide
  have := key off h
  generalize decodeRead off = x at this ⊢
  cases x with
  | error _ => simp at this
  | ok i => exact ⟨i, rfl, by simpa [and_assoc] using this⟩

/-- The decoder of commands is total; its answer carries the data whole. -/
theorem decodeCmd_spec (d : Word) : (decodeCmd d).wf = true ∧ (decodeCmd d).row.fmt = .cmd ∧ (decodeCmd d).data = d := by
  unfold decodeCmd
  have h0 : ∀ op : BitVec 4, op &&& 0xF = 0x0 → (Row.mk .cmd 0x00 0x0F).applies (op.zeroExtend 6) = true := by decide
  have h1 : ∀ op : BitVec 4, op &&& 0xF = 0x1 → (Row.mk .cmd 0x01 0x0F).applies (op.zeroExtend 6) = true := by decide
  have h2 : ∀ op : BitVec 4, op &&& 0xF = 0x2 → (Row.mk .cmd 0x02 0x0F).applies (op.zeroExtend 6) = true := by decide
  have h3 : ∀ op : BitVec 4, op &&& 0xF = 0x3 → (Row.mk .cmd 0x03 0x0F).applies (op.zeroExtend 6) = true := by decide
  have h4 : ∀ op : BitVec 4, op &&& 0xC = 0x4 → (Row.mk .cmd 0x04 0x0C).applies (op.zeroExtend 6) = true := by decide
  have h8 : ∀ op : BitVec 4, ¬op &&& 0xF = 0x0 → ¬op &&& 0xF = 0x1 → ¬op &&& 0xF = 0x2 → ¬op &&& 0xF = 0x3 →
      ¬op &&& 0xC = 0x4 → (Row.mk .cmd 0x08 0x08).applies (op.zeroExtend 6) = true := by decide
  dsimp only
  split
  · next h => exact ⟨h0 _ h, rfl, rfl⟩
  split
  · next h => exact ⟨h1 _ h, rfl, rfl⟩
  split
  · next h => exact ⟨h2 _ h, rfl, rfl⟩
  split
  · next h => exact ⟨h3 _ h, rfl, rfl⟩
  split
  · next h => exact ⟨h4 _ h, rfl, rfl⟩
  · next a b c e f => exact ⟨h8 _ a b c e f, rfl, rfl⟩

/-- The decoder of writes: an aligned offset is one row, which carries the offset and the data. -/
theorem decodeWrite_spec (off : BitVec 6) (d : Word) (h : off.toNat % 4 = 0) :
    ∃ i, decodeWrite off d = .ok i ∧ i.wf = true ∧ i.data = d ∧
      ((i.row.fmt = .regWrite ∧ i.selector = off) ∨ (i.row.fmt = .cmd ∧ off = 0x08)) := by
  have cover : ∀ off : BitVec 6, off.toNat % 4 = 0 →
      off = 0x00 ∨ off = 0x04 ∨ off = 0x08 ∨ off = 0x0C ∨ off = 0x10 ∨ off = 0x14 ∨ off = 0x18 ∨ off = 0x1C ∨
      off = 0x20 ∨ off = 0x24 ∨ off = 0x28 ∨ off = 0x2C ∨ off = 0x30 ∨ off = 0x34 ∨ off = 0x38 ∨ off = 0x3C := by
    decide
  rcases cover off h with rfl | rfl | rfl | rfl | rfl | rfl | rfl | rfl | rfl | rfl | rfl | rfl | rfl | rfl | rfl | rfl
  case inr.inr.inl =>
    exact ⟨decodeCmd d, rfl, (decodeCmd_spec d).1, (decodeCmd_spec d).2.2, .inr ⟨(decodeCmd_spec d).2.1, rfl⟩⟩
  all_goals
    refine ⟨_, by simp only [decodeWrite]; simp; rfl, ?_, rfl, .inl ⟨rfl, rfl⟩⟩
    simp [Instr.wf, Row.applies, Instr.row, Instr.selector]

/-! ### Decoding the selector of a well-formed instruction -/

theorem decodeRead_of_wf {i : Instr} (h : i.wf = true) (hf : i.row.fmt = .regRead) : decodeRead i.selector = .ok i := by
  have rsvd : ∀ off : BitVec 6, (Row.mk .regRead 0x30 0x33).applies off = true → decodeRead off = .ok (.rdRsvd off) := by
    decide
  cases i <;> first | rfl | exact rsvd _ h | cases hf

theorem decodeWrite_of_wf {i : Instr} (h : i.wf = true) (hf : i.row.fmt = .regWrite) :
    decodeWrite i.selector i.data = .ok i := by
  have digest : ∀ off : BitVec 6, (Row.mk .regWrite 0x20 0x33).applies off = true →
      off = 0x20 ∨ off = 0x24 ∨ off = 0x28 ∨ off = 0x2C := by decide
  have rsvd : ∀ off : BitVec 6, (Row.mk .regWrite 0x30 0x33).applies off = true →
      off = 0x30 ∨ off = 0x34 ∨ off = 0x38 ∨ off = 0x3C := by decide
  cases i
  case wrDigest off d => rcases digest off h with rfl | rfl | rfl | rfl <;> simp [decodeWrite, Instr.selector, Instr.data]
  case wrRsvd off d => rcases rsvd off h with rfl | rfl | rfl | rfl <;> simp [decodeWrite, Instr.selector, Instr.data]
  all_goals first | (cases hf; done) | simp [decodeWrite, Instr.selector, Instr.row, Instr.data]

theorem decodeCmd_of_wf {i : Instr} (h : i.wf = true) (hf : i.row.fmt = .cmd) : decodeCmd i.data = i := by
  have h0 : ∀ op : BitVec 4, (Row.mk .cmd 0x00 0x0F).applies (op.zeroExtend 6) = true → op = 0x0 := by decide
  have h1 : ∀ op : BitVec 4, (Row.mk .cmd 0x01 0x0F).applies (op.zeroExtend 6) = true → op = 0x1 := by decide
  have h2 : ∀ op : BitVec 4, (Row.mk .cmd 0x02 0x0F).applies (op.zeroExtend 6) = true → op = 0x2 := by decide
  have h3 : ∀ op : BitVec 4, (Row.mk .cmd 0x03 0x0F).applies (op.zeroExtend 6) = true → op = 0x3 := by decide
  have h4 : ∀ op : BitVec 4, (Row.mk .cmd 0x04 0x0C).applies (op.zeroExtend 6) = true →
      op = 0x4 ∨ op = 0x5 ∨ op = 0x6 ∨ op = 0x7 := by decide
  have h8 : ∀ op : BitVec 4, (Row.mk .cmd 0x08 0x08).applies (op.zeroExtend 6) = true →
      op = 0x8 ∨ op = 0x9 ∨ op = 0xA ∨ op = 0xB ∨ op = 0xC ∨ op = 0xD ∨ op = 0xE ∨ op = 0xF := by decide
  cases i
  case nop d => simp only [decodeCmd, Instr.data, h0 _ h]; rfl
  case start d => simp only [decodeCmd, Instr.data, h1 _ h]; rfl
  case abort d => simp only [decodeCmd, Instr.data, h2 _ h]; rfl
  case cmdRsvd3 d => simp only [decodeCmd, Instr.data, h3 _ h]; rfl
  case cmdRsvd47 d => rcases h4 _ h with e | e | e | e <;> simp only [decodeCmd, Instr.data, e] <;> rfl
  case cmdRsvd8F d =>
    rcases h8 _ h with e | e | e | e | e | e | e | e <;> simp only [decodeCmd, Instr.data, e] <;> rfl
  all_goals cases hf

theorem decodeSeq_of_wf {i : Instr} (hf : i.row.fmt = .seq) : decodeSeq (i.selector.setWidth 2) = i := by
  cases i <;> first | rfl | cases hf

theorem decodeRound_of_wf {i : Instr} (h : i.wf = true) (hf : i.row.fmt = .round) : decodeRound i.selector = i := by
  have rF : ∀ k : BitVec 6, (Row.mk .round 0x00 0x30).applies k = true → decodeRound k = .roundF k := by decide
  have rG : ∀ k : BitVec 6, (Row.mk .round 0x10 0x30).applies k = true → decodeRound k = .roundG k := by decide
  have rH : ∀ k : BitVec 6, (Row.mk .round 0x20 0x30).applies k = true → decodeRound k = .roundH k := by decide
  have rI : ∀ k : BitVec 6, (Row.mk .round 0x30 0x30).applies k = true → decodeRound k = .roundI k := by decide
  cases i <;> first | exact rF _ h | exact rG _ h | exact rH _ h | exact rI _ h | cases hf

/-! ### Accesses -/

/-- An access at an aligned offset of the block is decoded by its offset. -/
theorem decodeAccess_at (base off : Nat) (dir : Dir) (d : Word) (h4 : off % 4 = 0) (h64 : off < 64) :
    decodeAccess base ⟨dir, 32, base + off, d⟩ = decodeOffset dir (BitVec.ofNat 6 off) d := by
  have h : base + off - base = off := by omega
  have h1 : ¬base + off < base := by omega
  have h2 : ¬64 ≤ off := by omega
  simp only [decodeAccess, h, h1, h2, h4, ne_eq, not_true, if_false]

/-- The selectors of the register rows are multiples of 4. -/
theorem selector_aligned {i : Instr} (h : i.wf = true) (hf : i.row.fmt = .regRead ∨ i.row.fmt = .regWrite) :
    i.selector.toNat % 4 = 0 := by
  have r : ∀ off : BitVec 6, (Row.mk .regRead 0x30 0x33).applies off = true → off.toNat % 4 = 0 := by decide
  have w : ∀ off : BitVec 6, (Row.mk .regWrite 0x30 0x33).applies off = true → off.toNat % 4 = 0 := by decide
  have g : ∀ off : BitVec 6, (Row.mk .regWrite 0x20 0x33).applies off = true → off.toNat % 4 = 0 := by decide
  cases i <;> first | exact r _ h | exact w _ h | exact g _ h | (simp [Instr.row] at hf; done) | simp [Instr.selector, Instr.row]

/-- The four data bytes of a packet make up the data again. -/
theorem dataOfBytes_byteOfData (d : Word) :
    dataOfBytes (byteOfData d 0) (byteOfData d 1) (byteOfData d 2) (byteOfData d 3) = d := by
  apply BitVec.eq_of_getLsbD_eq
  intro k hk
  simp only [dataOfBytes, byteOfData, BitVec.getLsbD_append, BitVec.getLsbD_extractLsb']
  have : k < 8 ∨ (8 ≤ k ∧ k < 16) ∨ (16 ≤ k ∧ k < 24) ∨ 24 ≤ k := by omega
  rcases this with h | h | h | h
  · simp [h]
  · have : ¬k < 8 := by omega
    have h2 : k - 8 < 8 := by omega
    simp [this, h2]; congr 1; omega
  · have : ¬k < 8 := by omega
    have h2 : ¬k - 8 < 8 := by omega
    have h3 : k - 8 - 8 < 8 := by omega
    simp [this, h2, h3]; congr 1; omega
  · have : ¬k < 8 := by omega
    have h2 : ¬k - 8 < 8 := by omega
    have h3 : ¬k - 8 - 8 < 8 := by omega
    have h4 : k - 8 - 8 - 8 < 8 := by omega
    simp [this, h2, h3, h4]; congr 1; omega

/-! ### Commands -/

/-- A command by the number that `data[3:0]` is (R76). -/
theorem decodeCmd_eq (d : Word) : decodeCmd d =
    if d.toNat % 16 = 0 then .nop d else if d.toNat % 16 = 1 then .start d else if d.toNat % 16 = 2 then .abort d
    else if d.toNat % 16 = 3 then .cmdRsvd3 d else if d.toNat % 16 < 8 then .cmdRsvd47 d else .cmdRsvd8F d := by
  have ho : (d.extractLsb' 0 4).toNat = d.toNat % 16 := by simp [BitVec.extractLsb'_toNat]
  have key : ∀ op : BitVec 4, (op &&& 0xF = 0x0 ↔ op.toNat = 0) ∧ (op &&& 0xF = 0x1 ↔ op.toNat = 1) ∧
      (op &&& 0xF = 0x2 ↔ op.toNat = 2) ∧ (op &&& 0xF = 0x3 ↔ op.toNat = 3) ∧
      (op &&& 0xC = 0x4 ↔ (4 ≤ op.toNat ∧ op.toNat < 8)) := by decide
  obtain ⟨k0, k1, k2, k3, k4⟩ := key (d.extractLsb' 0 4)
  simp only [decodeCmd, k0, k1, k2, k3, k4, ho]
  split_ifs <;> first | rfl | omega

theorem decodeAccess_cmd (base : Nat) (d : Word) :
    decodeAccess base ⟨.write, 32, base + 0x08, d⟩ = .ok (decodeCmd d) := by
  rw [decodeAccess_at _ _ _ _ (by decide) (by decide)]; rfl

/-! ### The format of what is decoded -/

theorem decodeRead_fmt {off : BitVec 6} {i : Instr} (h : decodeRead off = .ok i) : i.row.fmt = .regRead := by
  have all : ∀ off : BitVec 6, (decodeRead off).toOption.all (fun i => decide (i.row.fmt = .regRead)) = true := by decide
  simpa [h, Except.toOption] using all off

theorem decodeCmd_fmt (d : Word) : (decodeCmd d).row.fmt = .cmd := (decodeCmd_spec d).2.1

theorem decodeWrite_fmt {off : BitVec 6} {d : Word} {i : Instr} (h : decodeWrite off d = .ok i) :
    i.row.fmt = .regWrite ∨ i.row.fmt = .cmd := by
  unfold decodeWrite at h
  split_ifs at h <;> cases h <;> first | exact .inl rfl | exact .inr (decodeCmd_fmt d)

theorem decodeAccess_ok {base : Nat} {a : Access} {i : Instr} (h : decodeAccess base a = .ok i) :
    ∃ off, decodeOffset a.dir off a.data = .ok i := by
  unfold decodeAccess at h
  split_ifs at h
  exact ⟨_, h⟩

/-- A read access is a reg_read row. -/
theorem decodeAccess_read {base : Nat} {a : Access} {i : Instr} (h : decodeAccess base a = .ok i)
    (hd : a.dir = .read) : i.row.fmt = .regRead := by
  obtain ⟨off, ho⟩ := decodeAccess_ok h
  rw [hd] at ho
  exact decodeRead_fmt ho

/-- No access is an engine step. -/
theorem decodeAccess_fmt {base : Nat} {a : Access} {i : Instr} (h : decodeAccess base a = .ok i) :
    i.row.fmt ≠ .seq ∧ i.row.fmt ≠ .round := by
  obtain ⟨off, ho⟩ := decodeAccess_ok h
  rcases hd : a.dir with _ | _ <;> rw [hd] at ho
  · have := decodeRead_fmt ho
    simp [this]
  · rcases decodeWrite_fmt ho with e | e <;> simp [e]

end Sys2Proof
end

