-- ==== Sys2Proof/Laws/Memory.lean ====
section
/-! SUPPORT. The message memory: read after write, and the canonical form that every write keeps. -/

namespace Sys2Proof.Machine

@[simp] theorem Memory.read_nil (a : Nat) : Memory.read [] a = Memory.unlisted := rfl

theorem Memory.wfFrom_mono {m : Memory} {lo lo' : Nat} (h : lo' ≤ lo) (hw : m.wfFrom lo = true) :
    m.wfFrom lo' = true := by
  cases m with
  | nil => rfl
  | cons c r =>
    obtain ⟨b, w⟩ := c
    simp only [Memory.wfFrom, Bool.and_eq_true, decide_eq_true_eq] at hw ⊢
    exact ⟨⟨by omega, hw.1.2⟩, hw.2⟩

/-- Below the first address of a canonical memory nothing is listed. -/
theorem Memory.read_below {m : Memory} {lo a : Nat} (hw : m.wfFrom lo = true) (h : a < lo) :
    m.read a = Memory.unlisted := by
  induction m generalizing lo with
  | nil => rfl
  | cons c r ih =>
    obtain ⟨b, w⟩ := c
    simp only [Memory.wfFrom, Bool.and_eq_true, decide_eq_true_eq] at hw
    have hb : b ≠ a := by omega
    simp only [Memory.read, hb, if_false]
    exact ih hw.2 (by omega)

theorem Memory.read_write_same {m : Memory} {lo : Nat} (hw : m.wfFrom lo = true) (a : Nat) (v : Byte) :
    (m.write a v).read a = v := by
  induction m generalizing lo with
  | nil => unfold Memory.write; split <;> simp_all [Memory.read]
  | cons c r ih =>
    obtain ⟨b, w⟩ := c
    have hw' := hw
    simp only [Memory.wfFrom, Bool.and_eq_true, decide_eq_true_eq] at hw
    unfold Memory.write
    split
    · split
      · next hab hv =>
        rw [hv]
        exact Memory.read_below (lo := b) (by simp [Memory.wfFrom, hw.1.2, hw.2]) hab
      · simp [Memory.read]
    · split
      · next hab =>
        split
        · next hv => rw [hv]; exact Memory.read_below hw.2 (by omega)
        · simp [Memory.read]
      · next hab =>
        have hb : b ≠ a := fun h => hab h.symm
        simp only [Memory.read, hb, if_false]
        exact ih hw.2

theorem Memory.read_write_other (m : Memory) {a x : Nat} (v : Byte) (h : x ≠ a) :
    (m.write a v).read x = m.read x := by
  induction m with
  | nil => unfold Memory.write; split <;> simp [Memory.read, h.symm]
  | cons c r ih =>
    obtain ⟨b, w⟩ := c
    unfold Memory.write
    split
    · split
      · rfl
      · simp [Memory.read, h.symm]
    · split
      · next hab =>
        have hb : b ≠ x := by omega
        split <;> simp [Memory.read, h.symm, hb]
      · simp only [Memory.read, ih]

theorem Memory.wfFrom_write {m : Memory} {lo : Nat} (hw : m.wfFrom lo = true) {a : Nat} (ha : lo ≤ a) (v : Byte) :
    (m.write a v).wfFrom lo = true := by
  induction m generalizing lo with
  | nil => unfold Memory.write; split <;> simp_all [Memory.wfFrom]
  | cons c r ih =>
    obtain ⟨b, w⟩ := c
    have hw' := hw
    simp only [Memory.wfFrom, Bool.and_eq_true, decide_eq_true_eq] at hw
    unfold Memory.write
    split
    · next hab =>
      split
      · exact hw'
      · next hv =>
        have : b ≥ a + 1 := hab
        simp [Memory.wfFrom, hv, ha, this, hw.1.2, hw.2]
    · split
      · split
        · exact Memory.wfFrom_mono (by omega) hw.2
        · next hv => simp_all [Memory.wfFrom]
      · have := ih hw.2 (by omega)
        simp_all [Memory.wfFrom]

/-- A write keeps the canonical form. -/
theorem Memory.wf_write {m : Memory} (hw : m.wf = true) (a : Nat) (v : Byte) : (m.write a v).wf = true :=
  Memory.wfFrom_write hw (Nat.zero_le a) v

theorem Memory.below_cons {bound b : Nat} {w : Byte} {r : Memory} :
    Memory.below bound ((b, w) :: r) = true ↔ b < bound ∧ Memory.below bound r = true := by
  simp [Memory.below, List.all_cons]

theorem Memory.below_write {m : Memory} {bound a : Nat} (hb : m.below bound = true) (ha : a < bound) (v : Byte) :
    (m.write a v).below bound = true := by
  induction m with
  | nil => unfold Memory.write; split <;> simp [Memory.below, ha]
  | cons c r ih =>
    obtain ⟨b, w⟩ := c
    have hc := Memory.below_cons.mp hb
    unfold Memory.write
    split
    · split
      · exact hb
      · exact Memory.below_cons.mpr ⟨ha, hb⟩
    · split
      · split
        · exact hc.2
        · exact Memory.below_cons.mpr ⟨ha, hc.2⟩
      · exact Memory.below_cons.mpr ⟨hc.1, ih hc.2⟩

/-- A write of bytes keeps the canonical form. -/
theorem Memory.wf_writeBytes {m : Memory} (hw : m.wf = true) (a : Nat) (bytes : List Byte) :
    (m.writeBytes a bytes).wf = true := by
  induction bytes generalizing m a with
  | nil => exact hw
  | cons v vs ih => exact ih (Memory.wf_write hw a v) (a + 1)

theorem Memory.below_writeBytes {m : Memory} {bound a : Nat} {bytes : List Byte} (hb : m.below bound = true)
    (ha : a + bytes.length ≤ bound) : (m.writeBytes a bytes).below bound = true := by
  induction bytes generalizing m a with
  | nil => exact hb
  | cons v vs ih =>
    simp only [List.length_cons] at ha
    exact ih (Memory.below_write hb (by omega) v) (by omega)

/-- A byte outside the bytes written reads as before. -/
theorem Memory.read_writeBytes_other {m : Memory} {a x : Nat} {bytes : List Byte}
    (h : x < a ∨ a + bytes.length ≤ x) : (m.writeBytes a bytes).read x = m.read x := by
  induction bytes generalizing m a with
  | nil => rfl
  | cons v vs ih =>
    simp only [List.length_cons] at h
    simp only [Memory.writeBytes]
    rw [ih (by omega), Memory.read_write_other _ _ (by omega)]

/-- A byte written reads back. -/
theorem Memory.read_writeBytes_same {m : Memory} (hw : m.wf = true) (a : Nat) {bytes : List Byte} {k : Nat}
    (hk : k < bytes.length) : (m.writeBytes a bytes).read (a + k) = bytes[k] := by
  induction bytes generalizing m a k with
  | nil => simp at hk
  | cons v vs ih =>
    simp only [Memory.writeBytes]
    cases k with
    | zero =>
      rw [Memory.read_writeBytes_other (by omega)]
      exact Memory.read_write_same hw a v
    | succ k =>
      have := ih (Memory.wf_write hw a v) (a + 1) (k := k) (by simpa using hk)
      simpa [Nat.add_assoc, Nat.add_comm 1 k] using this

theorem rangesMeet_iff {a n b m : Nat} :
    rangesMeet a n b m = true ↔ ∃ x, a ≤ x ∧ x < a + n ∧ b ≤ x ∧ x < b + m := by
  simp only [rangesMeet, decide_eq_true_eq]
  constructor
  · intro h
    rcases Nat.le_total a b with hab | hab
    · exact ⟨b, by omega⟩
    · exact ⟨a, by omega⟩
  · rintro ⟨x, h⟩; omega

end Sys2Proof.Machine
end

