-- ==== Sys2Proof/Laws/State.lean ====
section
/-! SUPPORT. One lemma per field per update of the state and of its two parts, true by rfl, so that no proof unfolds a
record update. -/

namespace Sys2Proof.Machine

variable (s : State) (r : Regs) (e : Engine)

/-! ### State.returnData -/

@[simp] theorem State.returnData_platform (d : Word) : (s.returnData d).platform = s.platform := rfl
@[simp] theorem State.returnData_regs (d : Word) : (s.returnData d).regs = s.regs := rfl
@[simp] theorem State.returnData_eng (d : Word) : (s.returnData d).eng = s.eng := rfl
@[simp] theorem State.returnData_mem (d : Word) : (s.returnData d).mem = s.mem := rfl
@[simp] theorem State.returnData_rdata (d : Word) : (s.returnData d).rdata = d := rfl
@[simp] theorem State.returnData_host (d : Word) : (s.returnData d).host = s.host := rfl
@[simp] theorem State.returnData_sched (d : Word) : (s.returnData d).sched = s.sched := rfl
@[simp] theorem State.returnData_torn (d : Word) : (s.returnData d).torn = s.torn := rfl
@[simp] theorem State.returnData_draws (d : Word) : (s.returnData d).draws = s.draws := rfl

/-! ### State.withRegs -/

@[simp] theorem State.withRegs_platform : (s.withRegs r).platform = s.platform := rfl
@[simp] theorem State.withRegs_regs : (s.withRegs r).regs = r := rfl
@[simp] theorem State.withRegs_eng : (s.withRegs r).eng = s.eng := rfl
@[simp] theorem State.withRegs_mem : (s.withRegs r).mem = s.mem := rfl
@[simp] theorem State.withRegs_rdata : (s.withRegs r).rdata = s.rdata := rfl
@[simp] theorem State.withRegs_host : (s.withRegs r).host = s.host := rfl
@[simp] theorem State.withRegs_sched : (s.withRegs r).sched = s.sched := rfl
@[simp] theorem State.withRegs_torn : (s.withRegs r).torn = s.torn := rfl
@[simp] theorem State.withRegs_draws : (s.withRegs r).draws = s.draws := rfl

/-! ### State.withEng -/

@[simp] theorem State.withEng_platform : (s.withEng e).platform = s.platform := rfl
@[simp] theorem State.withEng_regs : (s.withEng e).regs = s.regs := rfl
@[simp] theorem State.withEng_eng : (s.withEng e).eng = e := rfl
@[simp] theorem State.withEng_mem : (s.withEng e).mem = s.mem := rfl
@[simp] theorem State.withEng_rdata : (s.withEng e).rdata = s.rdata := rfl
@[simp] theorem State.withEng_host : (s.withEng e).host = s.host := rfl
@[simp] theorem State.withEng_sched : (s.withEng e).sched = s.sched := rfl
@[simp] theorem State.withEng_torn : (s.withEng e).torn = s.torn := rfl
@[simp] theorem State.withEng_draws : (s.withEng e).draws = s.draws := rfl

/-! ### State.raise -/

@[simp] theorem State.raise_platform (c : Cause) : (s.raise c).platform = s.platform := rfl
@[simp] theorem State.raise_regs (c : Cause) : (s.raise c).regs = s.regs.raise c := rfl
@[simp] theorem State.raise_eng (c : Cause) : (s.raise c).eng = s.eng := rfl
@[simp] theorem State.raise_mem (c : Cause) : (s.raise c).mem = s.mem := rfl
@[simp] theorem State.raise_rdata (c : Cause) : (s.raise c).rdata = s.rdata := rfl
@[simp] theorem State.raise_host (c : Cause) : (s.raise c).host = s.host := rfl
@[simp] theorem State.raise_sched (c : Cause) : (s.raise c).sched = s.sched := rfl
@[simp] theorem State.raise_torn (c : Cause) : (s.raise c).torn = s.torn := rfl
@[simp] theorem State.raise_draws (c : Cause) : (s.raise c).draws = s.draws := rfl

/-! ### State.setSrc -/

@[simp] theorem State.setSrc_platform (x : DWord) : (s.setSrc x).platform = s.platform := rfl
@[simp] theorem State.setSrc_regs (x : DWord) : (s.setSrc x).regs = { s.regs with src := truncAddr s.platform.addrW x } := rfl
@[simp] theorem State.setSrc_eng (x : DWord) : (s.setSrc x).eng = s.eng := rfl
@[simp] theorem State.setSrc_mem (x : DWord) : (s.setSrc x).mem = s.mem := rfl
@[simp] theorem State.setSrc_rdata (x : DWord) : (s.setSrc x).rdata = s.rdata := rfl
@[simp] theorem State.setSrc_host (x : DWord) : (s.setSrc x).host = s.host := rfl
@[simp] theorem State.setSrc_sched (x : DWord) : (s.setSrc x).sched = s.sched := rfl
@[simp] theorem State.setSrc_torn (x : DWord) : (s.setSrc x).torn = s.torn := rfl
@[simp] theorem State.setSrc_draws (x : DWord) : (s.setSrc x).draws = s.draws := rfl

/-! ### State.setLen -/

@[simp] theorem State.setLen_platform (x : DWord) : (s.setLen x).platform = s.platform := rfl
@[simp] theorem State.setLen_regs (x : DWord) : (s.setLen x).regs = { s.regs with len := x } := rfl
@[simp] theorem State.setLen_eng (x : DWord) : (s.setLen x).eng = s.eng := rfl
@[simp] theorem State.setLen_mem (x : DWord) : (s.setLen x).mem = s.mem := rfl
@[simp] theorem State.setLen_rdata (x : DWord) : (s.setLen x).rdata = s.rdata := rfl
@[simp] theorem State.setLen_host (x : DWord) : (s.setLen x).host = s.host := rfl
@[simp] theorem State.setLen_sched (x : DWord) : (s.setLen x).sched = s.sched := rfl
@[simp] theorem State.setLen_torn (x : DWord) : (s.setLen x).torn = s.torn := rfl
@[simp] theorem State.setLen_draws (x : DWord) : (s.setLen x).draws = s.draws := rfl

/-! ### State.setWork -/

@[simp] theorem State.setWork_platform (q : Quad) : (s.setWork q).platform = s.platform := rfl
@[simp] theorem State.setWork_regs (q : Quad) : (s.setWork q).regs = s.regs := rfl
@[simp] theorem State.setWork_eng (q : Quad) : (s.setWork q).eng = { s.eng with v := q } := rfl
@[simp] theorem State.setWork_mem (q : Quad) : (s.setWork q).mem = s.mem := rfl
@[simp] theorem State.setWork_rdata (q : Quad) : (s.setWork q).rdata = s.rdata := rfl
@[simp] theorem State.setWork_host (q : Quad) : (s.setWork q).host = s.host := rfl
@[simp] theorem State.setWork_sched (q : Quad) : (s.setWork q).sched = s.sched := rfl
@[simp] theorem State.setWork_torn (q : Quad) : (s.setWork q).torn = s.torn := rfl
@[simp] theorem State.setWork_draws (q : Quad) : (s.setWork q).draws = s.draws := rfl

/-! ### State.acceptStart -/

@[simp] theorem State.acceptStart_platform : (s.acceptStart).platform = s.platform := rfl
@[simp] theorem State.acceptStart_regs : (s.acceptStart).regs = s.regs.clearForStart := rfl
@[simp] theorem State.acceptStart_eng : (s.acceptStart).eng = s.eng.latch s.regs.src s.regs.len := rfl
@[simp] theorem State.acceptStart_mem : (s.acceptStart).mem = s.mem := rfl
@[simp] theorem State.acceptStart_rdata : (s.acceptStart).rdata = s.rdata := rfl
@[simp] theorem State.acceptStart_host : (s.acceptStart).host = s.host := rfl
@[simp] theorem State.acceptStart_sched : (s.acceptStart).sched = s.sched := rfl
@[simp] theorem State.acceptStart_torn : (s.acceptStart).torn = false := rfl
@[simp] theorem State.acceptStart_draws : (s.acceptStart).draws = s.draws := rfl

/-! ### State.complete -/

@[simp] theorem State.complete_platform (q : Quad) : (s.complete q).platform = s.platform := rfl
@[simp] theorem State.complete_regs (q : Quad) : (s.complete q).regs = { s.regs.raise .done with digest := s.result q } := rfl
@[simp] theorem State.complete_eng (q : Quad) : (s.complete q).eng = { s.eng with h := q, st := .idle } := rfl
@[simp] theorem State.complete_mem (q : Quad) : (s.complete q).mem = s.mem := rfl
@[simp] theorem State.complete_rdata (q : Quad) : (s.complete q).rdata = s.rdata := rfl
@[simp] theorem State.complete_host (q : Quad) : (s.complete q).host = s.host := rfl
@[simp] theorem State.complete_sched (q : Quad) : (s.complete q).sched = s.sched := rfl
@[simp] theorem State.complete_torn (q : Quad) : (s.complete q).torn = s.torn := rfl
@[simp] theorem State.complete_draws (q : Quad) : (s.complete q).draws = if s.torn then s.draws + 1 else s.draws := rfl

/-! ### State.nextBlock -/

@[simp] theorem State.nextBlock_platform (q : Quad) : (s.nextBlock q).platform = s.platform := rfl
@[simp] theorem State.nextBlock_regs (q : Quad) : (s.nextBlock q).regs = s.regs := rfl
@[simp] theorem State.nextBlock_eng (q : Quad) : (s.nextBlock q).eng = { s.eng with h := q, j := s.eng.j + 1, st := .load } := rfl
@[simp] theorem State.nextBlock_mem (q : Quad) : (s.nextBlock q).mem = s.mem := rfl
@[simp] theorem State.nextBlock_rdata (q : Quad) : (s.nextBlock q).rdata = s.rdata := rfl
@[simp] theorem State.nextBlock_host (q : Quad) : (s.nextBlock q).host = s.host := rfl
@[simp] theorem State.nextBlock_sched (q : Quad) : (s.nextBlock q).sched = s.sched := rfl
@[simp] theorem State.nextBlock_torn (q : Quad) : (s.nextBlock q).torn = s.torn := rfl
@[simp] theorem State.nextBlock_draws (q : Quad) : (s.nextBlock q).draws = s.draws := rfl

/-! ### State.resetInput -/

@[simp] theorem State.resetInput_platform : (s.resetInput).platform = s.platform := rfl
@[simp] theorem State.resetInput_regs : (s.resetInput).regs = Regs.reset := rfl
@[simp] theorem State.resetInput_eng : (s.resetInput).eng = Engine.reset := rfl
@[simp] theorem State.resetInput_mem : (s.resetInput).mem = s.mem := rfl
@[simp] theorem State.resetInput_rdata : (s.resetInput).rdata = s.rdata := rfl
@[simp] theorem State.resetInput_host : (s.resetInput).host = s.host := rfl
@[simp] theorem State.resetInput_sched : (s.resetInput).sched = s.sched := rfl
@[simp] theorem State.resetInput_torn : (s.resetInput).torn = false := rfl
@[simp] theorem State.resetInput_draws : (s.resetInput).draws = s.draws := rfl

/-! ### Regs.clear -/

@[simp] theorem Regs.clear_irqEn (d : Word) : (r.clear d).irqEn = r.irqEn := rfl
@[simp] theorem Regs.clear_done (d : Word) : (r.clear d).done = (r.done && !d.getLsbD 1) := rfl
@[simp] theorem Regs.clear_errCmd (d : Word) : (r.clear d).errCmd = (r.errCmd && !d.getLsbD 2) := rfl
@[simp] theorem Regs.clear_errBusy (d : Word) : (r.clear d).errBusy = (r.errBusy && !d.getLsbD 3) := rfl
@[simp] theorem Regs.clear_errRange (d : Word) : (r.clear d).errRange = (r.errRange && !d.getLsbD 4) := rfl
@[simp] theorem Regs.clear_aborted (d : Word) : (r.clear d).aborted = (r.aborted && !d.getLsbD 5) := rfl
@[simp] theorem Regs.clear_src (d : Word) : (r.clear d).src = r.src := rfl
@[simp] theorem Regs.clear_len (d : Word) : (r.clear d).len = r.len := rfl
@[simp] theorem Regs.clear_digest (d : Word) : (r.clear d).digest = r.digest := rfl

/-! ### Regs.clearForStart -/

@[simp] theorem Regs.clearForStart_irqEn : (r.clearForStart).irqEn = r.irqEn := rfl
@[simp] theorem Regs.clearForStart_done : (r.clearForStart).done = false := rfl
@[simp] theorem Regs.clearForStart_errCmd : (r.clearForStart).errCmd = r.errCmd := rfl
@[simp] theorem Regs.clearForStart_errBusy : (r.clearForStart).errBusy = r.errBusy := rfl
@[simp] theorem Regs.clearForStart_errRange : (r.clearForStart).errRange = r.errRange := rfl
@[simp] theorem Regs.clearForStart_aborted : (r.clearForStart).aborted = false := rfl
@[simp] theorem Regs.clearForStart_src : (r.clearForStart).src = r.src := rfl
@[simp] theorem Regs.clearForStart_len : (r.clearForStart).len = r.len := rfl
@[simp] theorem Regs.clearForStart_digest : (r.clearForStart).digest = r.digest := rfl

/-! ### Engine.latch -/

@[simp] theorem Engine.latch_st (src len : DWord) : (e.latch src len).st = .load := rfl
@[simp] theorem Engine.latch_srcL (src len : DWord) : (e.latch src len).srcL = src := rfl
@[simp] theorem Engine.latch_nL (src len : DWord) : (e.latch src len).nL = len := rfl
@[simp] theorem Engine.latch_lL (src len : DWord) : (e.latch src len).lL = bitLength len := rfl
@[simp] theorem Engine.latch_nblk (src len : DWord) : (e.latch src len).nblk = BitVec.ofNat 59 (blockCount len.toNat) := rfl
@[simp] theorem Engine.latch_j (src len : DWord) : (e.latch src len).j = 0 := rfl
@[simp] theorem Engine.latch_i (src len : DWord) : (e.latch src len).i = e.i := rfl
@[simp] theorem Engine.latch_h (src len : DWord) : (e.latch src len).h = iv := rfl
@[simp] theorem Engine.latch_v (src len : DWord) : (e.latch src len).v = e.v := rfl
@[simp] theorem Engine.latch_mblk (src len : DWord) : (e.latch src len).mblk = e.mblk := rfl

/-! ### Engine.enterBlock -/

@[simp] theorem Engine.enterBlock_st (w : Vector Word 16) : (e.enterBlock w).st = .round := rfl
@[simp] theorem Engine.enterBlock_srcL (w : Vector Word 16) : (e.enterBlock w).srcL = e.srcL := rfl
@[simp] theorem Engine.enterBlock_nL (w : Vector Word 16) : (e.enterBlock w).nL = e.nL := rfl
@[simp] theorem Engine.enterBlock_lL (w : Vector Word 16) : (e.enterBlock w).lL = e.lL := rfl
@[simp] theorem Engine.enterBlock_nblk (w : Vector Word 16) : (e.enterBlock w).nblk = e.nblk := rfl
@[simp] theorem Engine.enterBlock_j (w : Vector Word 16) : (e.enterBlock w).j = e.j := rfl
@[simp] theorem Engine.enterBlock_i (w : Vector Word 16) : (e.enterBlock w).i = 0 := rfl
@[simp] theorem Engine.enterBlock_h (w : Vector Word 16) : (e.enterBlock w).h = e.h := rfl
@[simp] theorem Engine.enterBlock_v (w : Vector Word 16) : (e.enterBlock w).v = e.h := rfl
@[simp] theorem Engine.enterBlock_mblk (w : Vector Word 16) : (e.enterBlock w).mblk = w := rfl

/-! ### Regs.raise: each cause sets its own flag -/

@[simp] theorem Regs.raise_irqEn (c : Cause) : (r.raise c).irqEn = r.irqEn := by cases c <;> rfl
@[simp] theorem Regs.raise_done (c : Cause) : (r.raise c).done = (r.done || decide (c = .done)) := by
  cases c <;> simp [Regs.raise]
@[simp] theorem Regs.raise_errCmd (c : Cause) : (r.raise c).errCmd = (r.errCmd || decide (c = .errCmd)) := by
  cases c <;> simp [Regs.raise]
@[simp] theorem Regs.raise_errBusy (c : Cause) : (r.raise c).errBusy = (r.errBusy || decide (c = .errBusy)) := by
  cases c <;> simp [Regs.raise]
@[simp] theorem Regs.raise_errRange (c : Cause) : (r.raise c).errRange = (r.errRange || decide (c = .errRange)) := by
  cases c <;> simp [Regs.raise]
@[simp] theorem Regs.raise_aborted (c : Cause) : (r.raise c).aborted = (r.aborted || decide (c = .aborted)) := by
  cases c <;> simp [Regs.raise]
@[simp] theorem Regs.raise_src (c : Cause) : (r.raise c).src = r.src := by cases c <;> rfl
@[simp] theorem Regs.raise_len (c : Cause) : (r.raise c).len = r.len := by cases c <;> rfl
@[simp] theorem Regs.raise_digest (c : Cause) : (r.raise c).digest = r.digest := by cases c <;> rfl

/-! ### Engine.advance -/

@[simp] theorem Engine.advance_st : e.advance.st = if e.i = 63 then .feed else e.st := by
  unfold Engine.advance; split <;> rfl
@[simp] theorem Engine.advance_srcL : e.advance.srcL = e.srcL := by unfold Engine.advance; split <;> rfl
@[simp] theorem Engine.advance_nL : e.advance.nL = e.nL := by unfold Engine.advance; split <;> rfl
@[simp] theorem Engine.advance_lL : e.advance.lL = e.lL := by unfold Engine.advance; split <;> rfl
@[simp] theorem Engine.advance_nblk : e.advance.nblk = e.nblk := by unfold Engine.advance; split <;> rfl
@[simp] theorem Engine.advance_j : e.advance.j = e.j := by unfold Engine.advance; split <;> rfl
@[simp] theorem Engine.advance_i : e.advance.i = if e.i = 63 then e.i else e.i + 1 := by
  unfold Engine.advance; split <;> rfl
@[simp] theorem Engine.advance_h : e.advance.h = e.h := by unfold Engine.advance; split <;> rfl
@[simp] theorem Engine.advance_v : e.advance.v = e.v := by unfold Engine.advance; split <;> rfl
@[simp] theorem Engine.advance_mblk : e.advance.mblk = e.mblk := by unfold Engine.advance; split <;> rfl

/-! ### Busy -/

theorem Engine.busy_iff : e.busy = true ↔ e.st ≠ .idle := by simp [Engine.busy]

theorem Engine.busy_eq_false_iff : e.busy = false ↔ e.st = .idle := by simp [Engine.busy]

end Sys2Proof.Machine
end

