-- ==== Sys2Proof/Laws/Exec.lean ====
section
/-! SUPPORT. What each shared operation, each row and each step can do, said once. -/

namespace Sys2Proof.Machine

/-! ### Outcomes -/

@[simp] theorem mapNext_next (f : State → State) (s : State) : mapNext f (.next s) = .next (f s) := rfl

theorem mapNext_eq_next {f : State → State} {o : Host.Outcome State Fault Refusal} {t : State} :
    mapNext f o = .next t ↔ ∃ u, o = .next u ∧ t = f u := by
  cases o <;> simp [mapNext, eq_comm]

/-! ### The surroundings of an instruction -/

/-- No instruction writes the message memory, the platform's parameters, the host's program or the schedule. -/
structure SameSurroundings (s t : State) : Prop where
  mem      : t.mem = s.mem
  platform : t.platform = s.platform
  host     : t.host = s.host
  sched    : t.sched = s.sched

theorem SameSurroundings.refl (s : State) : SameSurroundings s s := ⟨rfl, rfl, rfl, rfl⟩

/-! ### The engine's rows -/

/-- LOAD answers a next state only by entering the block. -/
theorem execLoad_next {s t : State} (h : execLoad s = .next t) :
    s.messageTouchesDevice = false ∧ s.blockInMemory = true ∧
      t = s.withEng (s.eng.enterBlock (loadWords s.eng s.mem)) := by
  unfold execLoad at h
  split at h
  · cases h
  · split at h
    · cases h
    · next h1 h2 => exact ⟨by simpa using h1, by simpa using h2, by simpa using h.symm⟩

/-- The phase of a round index, as a bound on the index. -/
theorem phase_cases (i : BitVec 6) :
    (phase i = 0 ∧ i.toNat < 16) ∨ (phase i = 1 ∧ 16 ≤ i.toNat ∧ i.toNat < 32) ∨
    (phase i = 2 ∧ 32 ≤ i.toNat ∧ i.toNat < 48) ∨ (phase i = 3 ∧ 48 ≤ i.toNat) := by
  revert i; decide

/-- The round of the phase that i selects is round i of the algorithm. -/
theorem execPhase_eq (s : State) : execPhase s = .next (s.setWork (roundAt s.eng.i s.eng.v s.eng.mblk)) := by
  rcases phase_cases s.eng.i with ⟨h, h1⟩ | ⟨h, h1, h2⟩ | ⟨h, h1, h2⟩ | ⟨h, h1⟩
  · simp [execPhase, execRoundF, roundOfF, roundAt, mixOf, wordIndex, h, h1]
  · have a : ¬s.eng.i.toNat < 16 := by omega
    simp [execPhase, execRoundG, roundOfG, roundAt, mixOf, wordIndex, h, a, h2]
  · have a : ¬s.eng.i.toNat < 16 := by omega
    have b : ¬s.eng.i.toNat < 32 := by omega
    simp [execPhase, execRoundH, roundOfH, roundAt, mixOf, wordIndex, h, a, b, h2]
  · have a : ¬s.eng.i.toNat < 16 := by omega
    have b : ¬s.eng.i.toNat < 32 := by omega
    have c : ¬s.eng.i.toNat < 48 := by omega
    simp [execPhase, execRoundI, roundOfI, roundAt, mixOf, wordIndex, h, a, b, c]

/-- ROUND always answers: the round, then the advance. -/
theorem execRound_eq (s : State) :
    execRound s = .next (s.withEng { s.eng with v := roundAt s.eng.i s.eng.v s.eng.mblk }.advance) := by
  rw [execRound, execPhase_eq]; rfl

theorem Engine.lastBlock_iff (e : Engine) : e.lastBlock = true ↔ e.j.toNat + 1 = e.nblk.toNat := by
  simp [Engine.lastBlock]

/-! ### Every row -/

/-- What an instruction leaves alone: everything around the engine. -/
theorem exec_surroundings {i : Instr} {s t : State} (h : exec i s = .next t) : SameSurroundings s t := by
  cases i
  case load => obtain ⟨-, -, rfl⟩ := execLoad_next h; exact ⟨rfl, rfl, rfl, rfl⟩
  case round => rw [exec, execRound_eq] at h; cases h; exact ⟨rfl, rfl, rfl, rfl⟩
  case feed => simp only [exec, execFeed] at h; split at h <;> cases h <;> exact ⟨rfl, rfl, rfl, rfl⟩
  case start d =>
    simp only [exec, execStart] at h
    split at h
    · cases h; exact ⟨rfl, rfl, rfl, rfl⟩
    · split at h <;> cases h <;> exact ⟨rfl, rfl, rfl, rfl⟩
  case abort d => simp only [exec, execAbort] at h; split at h <;> cases h <;> exact ⟨rfl, rfl, rfl, rfl⟩
  all_goals cases h; exact ⟨rfl, rfl, rfl, rfl⟩

/-- No instruction but START touches the record of a message byte written while busy. -/
theorem exec_torn {i : Instr} {s t : State} (h : exec i s = .next t) (hs : ∀ d, i ≠ .start d) : t.torn = s.torn := by
  cases i
  case load => obtain ⟨-, -, rfl⟩ := execLoad_next h; rfl
  case round => rw [exec, execRound_eq] at h; cases h; rfl
  case feed => simp only [exec, execFeed] at h; split at h <;> cases h <;> rfl
  case start d => exact absurd rfl (hs d)
  case abort d => simp only [exec, execAbort] at h; split at h <;> cases h <;> rfl
  all_goals cases h; rfl

/-- A read access answers in every state, and changes the returned data alone. -/
theorem exec_read {i : Instr} (hf : i.row.fmt = .regRead) (s : State) : ∃ d, exec i s = .next (s.returnData d) := by
  cases i <;> first | (cases hf; done) | exact ⟨_, rfl⟩

/-- Every access answers a next state in every state. -/
theorem exec_access_answers {i : Instr} (hs : i.row.fmt ≠ .seq) (hr : i.row.fmt ≠ .round) (s : State) :
    ∃ t, exec i s = .next t := by
  cases i
  case start d => simp only [exec, execStart]; split; exact ⟨_, rfl⟩; split <;> exact ⟨_, rfl⟩
  case abort d => simp only [exec, execAbort]; split <;> exact ⟨_, rfl⟩
  all_goals first | exact absurd rfl hs | exact absurd rfl hr | exact ⟨_, rfl⟩

/-- What the row of `st` is. -/
theorem decodeEngine_eq (e : Engine) :
    decodeEngine e = match e.st with
      | .idle => .idle | .load => .load | .round => .round | .feed => .feed := by
  unfold decodeEngine; cases e.st <;> rfl

/-! ### Writes of the message memory -/

/-- A write of the message memory answers a next state only by writing the bytes, all below 2^ADDR_W. -/
theorem storeMessage_next {a : Nat} {bytes : List Byte} {s t : State} (h : storeMessage a bytes s = .next t) :
    (bytes = [] ∨ a + bytes.length ≤ memSize s.platform) ∧
      t = { s with
        mem  := Memory.writeBytes s.mem a bytes
        torn := s.torn || (s.eng.busy && rangesMeet a bytes.length s.eng.srcL.toNat s.eng.nL.toNat) } := by
  unfold storeMessage at h
  split at h
  · cases h
  · next hn =>
    refine ⟨?_, by simpa using h.symm⟩
    by_cases hb : bytes = []
    · exact .inl hb
    · exact .inr (by simp only [hb, ne_eq, not_false_eq_true, true_and, Nat.not_lt] at hn; exact hn)

/-- A write of the message memory leaves the record set exactly when it was set, or the engine is busy and one of the bytes
written is a byte of the latched message. -/
theorem storeMessage_torn {a : Nat} {bytes : List Byte} {s t : State} (h : storeMessage a bytes s = .next t) :
    t.torn = true ↔ s.torn = true ∨ s.eng.st ≠ .idle ∧ ∃ k, k < bytes.length ∧
      s.eng.srcL.toNat ≤ a + k ∧ a + k < s.eng.srcL.toNat + s.eng.nL.toNat := by
  obtain ⟨-, rfl⟩ := storeMessage_next h
  simp only [Bool.or_eq_true, Bool.and_eq_true, Engine.busy_iff, rangesMeet, decide_eq_true_eq]
  refine or_congr Iff.rfl (and_congr Iff.rfl ⟨fun ⟨h1, h2, h3, h4⟩ => ?_, fun ⟨k, h1, h2, h3⟩ => by omega⟩)
  by_cases hc : a ≤ s.eng.srcL.toNat
  · exact ⟨s.eng.srcL.toNat - a, by omega, by omega, by omega⟩
  · exact ⟨0, by omega, by omega, by omega⟩

/-! ### The host's turn and the step -/

/-- An access that the host makes answers a next state only by the instruction it decodes to. -/
theorem hostAccess_next {a : Access} {s t : State} (h : hostAccess a s = .next t) :
    ∃ i, decodeAccess s.platform.base a = .ok i ∧ exec i s = .next t := by
  unfold hostAccess at h
  split at h
  · next i hi => exact ⟨i, hi, h⟩
  · cases h

/-- Everything one step can do. -/
inductive StepCase (s t : State) : Prop where
  | engine (turn : s.nextTurn = .engine) (run : exec (decodeEngine s.eng) { s with sched := s.sched.tail } = .next t)
  | reset (turn : s.nextTurn = .reset) (eq : t = { s with sched := s.sched.tail }.resetInput)
  | agent (a : Nat) (bytes : List Byte) (turn : s.nextTurn = .agent a bytes)
      (run : storeMessage a bytes { s with sched := s.sched.tail } = .next t)
  | hostDone (turn : s.nextTurn = .host) (prog : s.host = []) (eq : t = { s with sched := s.sched.tail })
  | access (a : Access) (rest : List HostOp) (i : Instr) (turn : s.nextTurn = .host)
      (prog : s.host = .access a :: rest) (dec : decodeAccess s.platform.base a = .ok i)
      (run : exec i { s with sched := s.sched.tail, host := rest } = .next t)
  | poll (addr : Nat) (mask value : Word) (rest : List HostOp) (i : Instr) (u : State) (turn : s.nextTurn = .host)
      (prog : s.host = .poll addr mask value :: rest)
      (dec : decodeAccess s.platform.base (pollAccess addr) = .ok i)
      (run : exec i { s with sched := s.sched.tail } = .next u) (eq : t = pollAgain mask value rest u)
  | hostWrite (a : Nat) (bytes : List Byte) (rest : List HostOp) (turn : s.nextTurn = .host)
      (prog : s.host = .memWrite a bytes :: rest)
      (run : storeMessage a bytes { s with sched := s.sched.tail, host := rest } = .next t)
  | waitIrq (rest : List HostOp) (turn : s.nextTurn = .host) (prog : s.host = .waitIrq :: rest)
      (eq : t = if s.irq then { s with sched := s.sched.tail, host := rest } else { s with sched := s.sched.tail })

/-- The inversion of the step: proofs about steps cite this and unfold nothing. -/
theorem step_cases {s t : State} (h : step s = .next t) : StepCase s t := by
  unfold step takeTurn at h
  split at h
  · next turn => exact .engine turn h
  · next turn =>
    unfold hostTurn at h
    split at h
    · next prog => cases h; exact .hostDone turn prog rfl
    · next a rest prog =>
      obtain ⟨i, dec, run⟩ := hostAccess_next h
      exact .access a rest i turn prog dec run
    · next addr mask value rest prog =>
      obtain ⟨u, hu, rfl⟩ := mapNext_eq_next.mp h
      obtain ⟨i, dec, run⟩ := hostAccess_next hu
      exact .poll addr mask value rest i u turn prog dec run rfl
    · next a bytes rest prog => exact .hostWrite a bytes rest turn prog h
    · next rest prog =>
      have : t = if s.irq then { s with sched := s.sched.tail, host := rest } else { s with sched := s.sched.tail } := by
        cases h; rfl
      exact .waitIrq rest turn prog this
  · next turn => cases h; exact .reset turn rfl
  · next a bytes turn => exact .agent a bytes turn h

/-! ### What a row does to the operation -/

/-- Everything an access can do to the operation: nothing, accept a START, or stop it. -/
inductive AccessEffect (i : Instr) (s t : State) : Prop where
  | keeps (eng : t.eng = s.eng) (torn : t.torn = s.torn) (digest : t.regs.digest = s.regs.digest)
      (src : t.regs.src = s.regs.src ∨ ∃ v, t.regs.src = truncAddr s.platform.addrW v)
      (done : t.regs.done = true → s.regs.done = true)
  | accepts (d : Word) (instr : i = .start d) (idle : s.eng.st = .idle) (range : s.regs.src.toNat + s.regs.len.toNat ≤ memSize s.platform)
      (eq : t = s.acceptStart)
  | stops (d : Word) (instr : i = .abort d) (busy : s.eng.st ≠ .idle)
      (eq : t = (s.withEng { s.eng with st := .idle }).raise .aborted)

theorem exec_access_effect {i : Instr} (hs : i.row.fmt ≠ .seq) (hr : i.row.fmt ≠ .round) {s t : State}
    (h : exec i s = .next t) : AccessEffect i s t := by
  cases i
  case start d =>
    simp only [exec, execStart] at h
    split at h
    · cases h; exact .keeps rfl rfl rfl (.inl rfl) id
    · next hb =>
      split at h
      · cases h; exact .keeps rfl rfl rfl (.inl rfl) id
      · next hr' =>
        cases h
        exact .accepts d rfl (by simpa [Engine.busy] using hb)
          (Nat.le_of_not_lt fun hlt => hr' (decide_eq_true hlt)) rfl
  case abort d =>
    simp only [exec, execAbort] at h
    split at h
    · next hb => cases h; exact .stops d rfl ((Engine.busy_iff _).mp hb) rfl
    · cases h; exact .keeps rfl rfl rfl (.inl rfl) id
  case wrSrcLo d => cases h; exact .keeps rfl rfl rfl (.inr ⟨_, rfl⟩) id
  case wrSrcHi d => cases h; exact .keeps rfl rfl rfl (.inr ⟨_, rfl⟩) id
  case wrStatus d => cases h; exact .keeps rfl rfl rfl (.inl rfl) (by simp only [State.withRegs, Regs.clear]; simp; exact fun a _ => a)
  all_goals first | exact absurd rfl hs | exact absurd rfl hr | (cases h; exact .keeps rfl rfl rfl (.inl rfl) id)

/-- The error flags of a row other than WR.STATUS never fall. -/
theorem exec_errors_kept {i : Instr} {s t : State} (h : exec i s = .next t) (hi : ∀ d, i ≠ .wrStatus d) :
    (s.regs.errCmd = true → t.regs.errCmd = true) ∧ (s.regs.errBusy = true → t.regs.errBusy = true) ∧
      (s.regs.errRange = true → t.regs.errRange = true) := by
  cases i
  case wrStatus d => exact absurd rfl (hi d)
  case load => obtain ⟨-, -, rfl⟩ := execLoad_next h; exact ⟨id, id, id⟩
  case round => rw [exec, execRound_eq] at h; cases h; exact ⟨id, id, id⟩
  case feed => simp only [exec, execFeed] at h; split at h <;> cases h <;> exact ⟨id, id, id⟩
  case start d =>
    simp only [exec, execStart] at h
    split at h
    · cases h; exact ⟨id, fun _ => rfl, id⟩
    · split at h
      · cases h; exact ⟨id, id, fun _ => rfl⟩
      · cases h; exact ⟨id, id, id⟩
  case abort d => simp only [exec, execAbort] at h; split at h <;> cases h <;> exact ⟨id, id, id⟩
  case cmdRsvd3 => cases h; exact ⟨fun _ => rfl, id, id⟩
  case cmdRsvd47 => cases h; exact ⟨fun _ => rfl, id, id⟩
  case cmdRsvd8F => cases h; exact ⟨fun _ => rfl, id, id⟩
  all_goals cases h; exact ⟨id, id, id⟩

/-- Everything an engine step can do: nothing, LOAD, ROUND, FEED to the next block, or completion. -/
inductive EngineEffect (s t : State) : Prop where
  | idle (st : s.eng.st = .idle) (eq : t = s)
  | load (st : s.eng.st = .load) (eq : t = s.withEng (s.eng.enterBlock (loadWords s.eng s.mem)))
  | round (st : s.eng.st = .round)
      (eq : t = s.withEng { s.eng with v := roundAt s.eng.i s.eng.v s.eng.mblk }.advance)
  | next (st : s.eng.st = .feed) (more : s.eng.j.toNat + 1 ≠ s.eng.nblk.toNat)
      (eq : t = s.nextBlock (s.eng.h.add s.eng.v))
  | complete (st : s.eng.st = .feed) (last : s.eng.j.toNat + 1 = s.eng.nblk.toNat)
      (eq : t = s.complete (s.eng.h.add s.eng.v))

theorem exec_engine_effect {s t : State} {e : Engine} (he : s.eng = e) (h : exec (decodeEngine e) s = .next t) :
    EngineEffect s t := by
  subst he
  rw [decodeEngine_eq] at h
  rcases hst : s.eng.st with _ | _ | _ | _ <;> simp only [hst] at h
  · cases h; exact .idle hst rfl
  · obtain ⟨-, -, rfl⟩ := execLoad_next h; exact .load hst rfl
  · rw [exec, execRound_eq] at h; cases h; exact .round hst rfl
  · simp only [exec, execFeed] at h
    split at h
    · next hl => cases h; exact .complete hst ((Engine.lastBlock_iff _).mp hl) rfl
    · next hl => cases h; exact .next hst (fun e => hl ((Engine.lastBlock_iff _).mpr e)) rfl

theorem Engine.advance_not_idle (e : Engine) (h : e.st = .round) : e.advance.st ≠ .idle := by
  unfold Engine.advance; split <;> simp [h]

/-! ### What a step does to the engine -/

/-- Everything one step can do to the registers and the internal state: an engine row, reset, an access, a write of the
message memory, or nothing. -/
inductive StepEffect (s t : State) : Prop where
  | engine (turn : s.nextTurn = .engine) (run : exec (decodeEngine s.eng) { s with sched := s.sched.tail } = .next t)
  | reset (turn : s.nextTurn = .reset) (eq : t = { s with sched := s.sched.tail }.resetInput)
  | access (a : Access) (rest : List HostOp) (i : Instr) (turn : s.nextTurn = .host)
      (prog : s.host = .access a :: rest) (dec : decodeAccess s.platform.base a = .ok i)
      (run : exec i { s with sched := s.sched.tail, host := rest } = .next t)
  | write (a : Nat) (bytes : List Byte) (rest : List HostOp)
      (run : storeMessage a bytes { s with sched := s.sched.tail, host := rest } = .next t)
  | quiet (d : Word) (rest : List HostOp) (eq : t = { s with sched := s.sched.tail, rdata := d, host := rest })

theorem step_effect {s t : State} (h : step s = .next t) : StepEffect s t := by
  cases step_cases h with
  | engine turn run => exact .engine turn run
  | reset turn eq => exact .reset turn eq
  | agent a bytes turn run => exact .write a bytes s.host run
  | hostDone turn prog eq => exact .quiet s.rdata s.host eq
  | access a rest i turn prog dec run => exact .access a rest i turn prog dec run
  | poll addr mask value rest i u turn prog dec run eq =>
    obtain ⟨d, hd⟩ := exec_read (decodeAccess_read dec rfl) { s with sched := s.sched.tail }
    rw [hd] at run
    cases run
    subst eq
    unfold pollAgain
    split
    · exact .quiet d rest rfl
    · exact .quiet d s.host rfl
  | hostWrite a bytes rest turn prog run => exact .write a bytes rest run
  | waitIrq rest turn prog eq =>
    subst eq
    split
    · exact .quiet s.rdata rest rfl
    · exact .quiet s.rdata s.host rfl

/-! ### Runs -/

theorem run_zero (s : State) : Host.Core.run core 0 s = .next s := rfl

theorem run_succ {s t : State} (k : Nat) (h : step s = .next t) :
    Host.Core.run core (k + 1) s = Host.Core.run core k t := by
  have : core.step s = .next t := h
  simp only [Host.Core.run, this]

theorem run_add {s t : State} {k : Nat} (n : Nat) (h : Host.Core.run core k s = .next t) :
    Host.Core.run core (k + n) s = Host.Core.run core n t := by
  induction k generalizing s with
  | zero => rw [Nat.zero_add]; simp only [run_zero] at h; cases h; rfl
  | succ k ih =>
    rw [Nat.add_right_comm]
    simp only [Host.Core.run] at h ⊢
    split at h
    · exact ih h
    · cases h
    · cases h

end Sys2Proof.Machine
end

