-- ==== Sys2Proof/Laws/Md5.lean ====
section
/-! SUPPORT. The padded buffer, region by region, and the block words. -/

namespace Sys2Proof.Machine

theorem length_le64 (v : DWord) : (le64 v).length = 8 := by simp [le64]

theorem getElem?_le64 (v : DWord) {t : Nat} (h : t < 8) : (le64 v)[t]? = some (byteOf64 v t) := by
  simp [le64, h]

/-- n + 1 + z + 8 = 64 nblk (R104). -/
theorem zeroFill_length (n : Nat) : n + 1 + zeroFill n + 8 = 64 * blockCount n := by
  simp only [zeroFill, blockCount]; omega

theorem zeroFill_lt (n : Nat) : zeroFill n < 64 := by
  simp only [zeroFill]; omega

theorem length_pad (msg : List Byte) : (pad msg).length = 64 * blockCount msg.length := by
  have := zeroFill_length msg.length
  simp only [pad, List.length_append, List.length_replicate, length_le64, List.length_singleton]
  omega

theorem getElem?_pad_message (msg : List Byte) {k : Nat} (h : k < msg.length) : (pad msg)[k]? = msg[k]? := by
  simp only [pad, List.append_assoc]
  rw [List.getElem?_append_left h]

theorem getElem?_pad_marker (msg : List Byte) : (pad msg)[msg.length]? = some 0x80 := by
  simp [pad, List.append_assoc]

theorem getElem?_pad_zero (msg : List Byte) {k : Nat} (h : msg.length < k) (h' : k < 64 * blockCount msg.length - 8) :
    (pad msg)[k]? = some 0 := by
  have hz := zeroFill_length msg.length
  simp only [pad]
  rw [List.getElem?_append_left (by simp; omega), List.getElem?_append_right (by simp; omega)]
  simp only [List.length_append, List.length_singleton, List.getElem?_replicate]
  rw [if_pos (by omega)]

theorem getElem?_pad_length (msg : List Byte) {t : Nat} (h : t < 8) :
    (pad msg)[64 * blockCount msg.length - 8 + t]? = some (byteOf64 (BitVec.ofNat 64 (8 * msg.length)) t) := by
  have hz := zeroFill_length msg.length
  simp only [pad]
  rw [List.getElem?_append_right (by simp; omega)]
  simp only [List.length_append, List.length_singleton, List.length_replicate]
  rw [show 64 * blockCount msg.length - 8 + t - (msg.length + 1 + zeroFill msg.length) = t by omega]
  exact getElem?_le64 _ h

/-- The 8 bytes of `LE64(v)` read back as a little-endian integer are v. -/
theorem leValue_le64 (v : DWord) : leValue (le64 v) = v.toNat := by
  have h : ∀ t, (byteOf64 v t).toNat = v.toNat / 2 ^ (8 * t) % 256 := by
    intro t; simp [byteOf64, BitVec.extractLsb'_toNat, Nat.shiftRight_eq_div_pow]
  have := v.isLt
  simp only [leValue, le64, List.range, List.range.loop, List.map, List.foldr, h]
  omega

/-- The padded buffer of every message has the invariants of R107. -/
theorem pad_invariants (msg : List Byte) : PaddedInvariants msg (pad msg) := by
  refine ⟨by rw [length_pad]; omega, ?_, by simp [pad, List.append_assoc], getElem?_pad_marker msg⟩
  rw [pad, List.length_append, length_le64, Nat.add_sub_cancel, List.drop_left, leValue_le64, BitVec.toNat_ofNat]

/-- Byte t of a 64-bit value as a number. -/
theorem byteOf64_ofNat (x : Nat) {t : Nat} (h : t < 8) :
    byteOf64 (BitVec.ofNat 64 x) t = BitVec.ofNat 8 (x / 256 ^ t) := by
  apply BitVec.eq_of_getLsbD_eq
  intro i hi
  have hp : 256 ^ t = 2 ^ (8 * t) := by rw [Nat.pow_mul]
  simp only [byteOf64, BitVec.getLsbD_extractLsb', BitVec.getLsbD_ofNat, hp, ← Nat.shiftRight_eq_div_pow,
    Nat.testBit_shiftRight]
  have : 8 * t + i < 64 := by omega
  simp [hi, this]

theorem blockWords_congr {f g : Nat → Byte} (h : ∀ t, t < 64 → f t = g t) : blockWords f = blockWords g := by
  unfold blockWords
  congr 1
  funext w
  have := w.isLt
  rw [h _ (by omega), h _ (by omega), h _ (by omega), h _ (by omega)]

theorem getElem_blockWords (f : Nat → Byte) {k : Nat} (h : k < 16) :
    (blockWords f)[k] = le32 (f (4 * k)) (f (4 * k + 1)) (f (4 * k + 2)) (f (4 * k + 3)) := by
  simp [blockWords]

theorem roundsUpTo_succ (n : Nat) (v : Quad) (m : Vector Word 16) :
    roundsUpTo (n + 1) v m = roundAt (BitVec.ofNat 6 n) (roundsUpTo n v m) m := rfl

theorem stateAfter_succ (p : List Byte) (n : Nat) : stateAfter p (n + 1) = compress (stateAfter p n) (blockOf p n) := rfl

/-- The block count of a 64-bit length fits the 59 bits of nblk (R35, R104). -/
theorem blockCount_lt (n : DWord) : blockCount n.toNat < 2 ^ 59 := by
  have := n.isLt
  simp only [blockCount]; omega

end Sys2Proof.Machine
end

