-- ==== Sys2Proof/Laws/Operands.lean ====
section
/-! SUPPORT. The halves of SRC and LEN as numbers, and the STATUS word bit by bit. -/

namespace Sys2Proof.Machine

/-! ### Halves (R74) -/

@[simp] theorem toNat_lowHalf (v : DWord) : (lowHalf v).toNat = v.toNat % 2 ^ 32 := by
  simp [lowHalf]

@[simp] theorem toNat_highHalf (v : DWord) : (highHalf v).toNat = v.toNat / 2 ^ 32 := by
  have := v.isLt
  simp only [highHalf, BitVec.extractLsb'_toNat, Nat.shiftRight_eq_div_pow]
  omega

@[simp] theorem toNat_joinHalves (hi lo : Word) : (joinHalves hi lo).toNat = hi.toNat * 2 ^ 32 + lo.toNat := by
  have := lo.isLt
  simp only [joinHalves, BitVec.toNat_append]
  rw [← Nat.shiftLeft_add_eq_or_of_lt this, Nat.shiftLeft_eq]

theorem joinHalves_halves (v : DWord) : joinHalves (highHalf v) (lowHalf v) = v := by
  apply BitVec.eq_of_toNat_eq
  simp only [toNat_joinHalves, toNat_highHalf, toNat_lowHalf]
  omega

@[simp] theorem toNat_truncAddr (addrW : Nat) (v : DWord) : (truncAddr addrW v).toNat = v.toNat % 2 ^ addrW := by
  have := v.isLt
  have := Nat.mod_le v.toNat (2 ^ addrW)
  simp only [truncAddr, BitVec.toNat_ofNat]
  exact Nat.mod_eq_of_lt (by omega)

/-! ### The STATUS word (R24, R174) -/

theorem getLsbD_flagAt (b : Bool) {p : Nat} (hp : p < 32) (k : Nat) :
    (flagAt b p).getLsbD k = (b && decide (k = p)) := by
  cases b
  · simp [flagAt]
  · simp only [flagAt, if_true, BitVec.getLsbD_shiftLeft, BitVec.getLsbD_one, Bool.true_and]
    by_cases h : k = p
    · subst h; simp [hp]
    · simp [h]; omega

theorem getLsbD_statusWord (r : Regs) (e : Engine) (k : Nat) :
    (statusWord r e).getLsbD k =
      ((r.aborted && decide (k = 5)) || (r.errRange && decide (k = 4)) || (r.errBusy && decide (k = 3)) ||
        (r.errCmd && decide (k = 2)) || (r.done && decide (k = 1)) || (e.busy && decide (k = 0))) := by
  simp only [statusWord, BitVec.getLsbD_or]
  rw [getLsbD_flagAt _ (by decide), getLsbD_flagAt _ (by decide), getLsbD_flagAt _ (by decide),
    getLsbD_flagAt _ (by decide), getLsbD_flagAt _ (by decide), getLsbD_flagAt _ (by decide)]

end Sys2Proof.Machine
end

