-- ==== Sys2Proof/Laws/PerInstr.lean ====
section
/-! SUPPORT. Facts that hold of every instruction as syntax, one lemma per constructor. -/

namespace Sys2Proof.Laws.TableRow

/-- What the opcode table and the encoder agree on for an instruction (R70, R86): its packet has six bytes, the kind
byte of its format, and the four data bytes give its data back; and when it is well-formed its row applies to its
selector. -/
def Statement (i : Instr) : Prop :=
  (encode i).length = 6 ∧ (encode i)[1]? = some i.row.fmt.kind ∧
  dataOfBytes (byteOfData i.data 0) (byteOfData i.data 1) (byteOfData i.data 2) (byteOfData i.data 3) = i.data ∧
  (i.wf = true ↔ i.selector &&& i.row.mask = i.row.mtch)

/-- The part that no operand changes. -/
theorem of_row (i : Instr) : Statement i :=
  ⟨rfl, rfl, dataOfBytes_byteOfData i.data, by simp [Instr.wf, Row.applies]⟩

theorem rdId : Statement (.rdId) := of_row _
theorem rdCtrl : Statement (.rdCtrl) := of_row _
theorem rdCmd : Statement (.rdCmd) := of_row _
theorem rdStatus : Statement (.rdStatus) := of_row _
theorem rdSrcLo : Statement (.rdSrcLo) := of_row _
theorem rdSrcHi : Statement (.rdSrcHi) := of_row _
theorem rdLenLo : Statement (.rdLenLo) := of_row _
theorem rdLenHi : Statement (.rdLenHi) := of_row _
theorem rdDigest0 : Statement (.rdDigest0) := of_row _
theorem rdDigest1 : Statement (.rdDigest1) := of_row _
theorem rdDigest2 : Statement (.rdDigest2) := of_row _
theorem rdDigest3 : Statement (.rdDigest3) := of_row _
theorem rdRsvd (off : BitVec 6) : Statement (.rdRsvd off) := of_row _
theorem wrId (data : Word) : Statement (.wrId data) := of_row _
theorem wrCtrl (data : Word) : Statement (.wrCtrl data) := of_row _
theorem wrStatus (data : Word) : Statement (.wrStatus data) := of_row _
theorem wrSrcLo (data : Word) : Statement (.wrSrcLo data) := of_row _
theorem wrSrcHi (data : Word) : Statement (.wrSrcHi data) := of_row _
theorem wrLenLo (data : Word) : Statement (.wrLenLo data) := of_row _
theorem wrLenHi (data : Word) : Statement (.wrLenHi data) := of_row _
theorem wrDigest (off : BitVec 6) (data : Word) : Statement (.wrDigest off data) := of_row _
theorem wrRsvd (off : BitVec 6) (data : Word) : Statement (.wrRsvd off data) := of_row _
theorem nop (data : Word) : Statement (.nop data) := of_row _
theorem start (data : Word) : Statement (.start data) := of_row _
theorem abort (data : Word) : Statement (.abort data) := of_row _
theorem cmdRsvd3 (data : Word) : Statement (.cmdRsvd3 data) := of_row _
theorem cmdRsvd47 (data : Word) : Statement (.cmdRsvd47 data) := of_row _
theorem cmdRsvd8F (data : Word) : Statement (.cmdRsvd8F data) := of_row _
theorem idle : Statement (.idle) := of_row _
theorem load : Statement (.load) := of_row _
theorem round : Statement (.round) := of_row _
theorem feed : Statement (.feed) := of_row _
theorem roundF (i : BitVec 6) : Statement (.roundF i) := of_row _
theorem roundG (i : BitVec 6) : Statement (.roundG i) := of_row _
theorem roundH (i : BitVec 6) : Statement (.roundH i) := of_row _
theorem roundI (i : BitVec 6) : Statement (.roundI i) := of_row _

end Sys2Proof.Laws.TableRow
end

