-- ==== Sys2Proof/Tests/Slice0.lean ====
section
/-! SUPPORT. Tests of the model. Expected results are taken from the spec's encodings, worked examples and vectors
(spec/95_test_vectors.md, cited as V and its section or row), never from the model. -/

namespace Sys2Proof.Tests

open Sys2Proof.Machine

/-! ### Small states -/

/-- A next state has the property; a stop has none. -/
def nextIs (o : Host.Outcome State Fault Refusal) (p : State → Bool) : Bool :=
  match o with
  | .next t    => p t
  | .fault _   => false
  | .refused _ => false

/-- The engine stops with this fault. -/
def faultIs (o : Host.Outcome State Fault Refusal) (f : Fault) : Bool :=
  match o with
  | .next _    => false
  | .fault r   => decide (r = f)
  | .refused _ => false

/-- The engine refuses with this refusal. -/
def refusalIs (o : Host.Outcome State Fault Refusal) (f : Refusal) : Bool :=
  match o with
  | .next _    => false
  | .fault _   => false
  | .refused r => decide (r = f)

/-- The STATUS word of a state. -/
def statusOf (s : State) : Word := statusWord s.regs s.eng

/-- Idle, SRC and LEN programmed. -/
def idleAt (src len : DWord) : State := { State.reset with regs := { Regs.reset with src := src, len := len } }

/-- The bytes "abc" at 0x1000. -/
def abcMem : List Host.Cell := [(0x1000, 0x61), (0x1001, 0x62), (0x1002, 0x63)]

/-- Idle with "abc" at 0x1000 programmed (V 12.1). -/
def idleAbc : State := { idleAt 0x1000 3 with mem := abcMem }

/-- Busy on "abc", before its LOAD. -/
def loadAbc : State := idleAbc.acceptStart

/-- Busy on "abc", before round 0. -/
def roundAbc : State := loadAbc.withEng (loadAbc.eng.enterBlock (loadWords loadAbc.eng loadAbc.mem))

/-- Busy on the empty message, before its FEED (V 7.1, the row of round 63). -/
def feedEmpty : State :=
  let e := (idleAt 0 0).acceptStart.eng
  { (idleAt 0 0).acceptStart with
    eng := { e with
      st := .feed, i := 63, mblk := Vector.ofFn fun w : Fin 16 => if w.val = 0 then 0x00000080 else 0
      v := ⟨0x7246FAD3, 0x14E45506, 0xFF4EA3EB, 0x6E10A476⟩ } }

/-- A round row on the values (a, b, c, d), with the empty message's block (V 7.1). -/
def roundFrom (v : Quad) : State := { feedEmpty with eng := { feedEmpty.eng with st := .round, v := v } }

/-- The working variables after a row. -/
def workIs (o : Host.Outcome State Fault Refusal) (v : Quad) : Bool := nextIs o fun t => decide (t.eng.v = v)

/-! ### WellFormed: one ill-formed term for each check -/

theorem test_wf_refuses_bad_offsets :
    (Instr.rdRsvd 0x2C).wf = false ∧ (Instr.rdRsvd 0x31).wf = false ∧ (Instr.wrDigest 0x30 0).wf = false ∧
    (Instr.wrDigest 0x22 0).wf = false ∧ (Instr.wrRsvd 0x2C 0).wf = false := by decide

theorem test_wf_refuses_bad_opcodes :
    (Instr.nop 1).wf = false ∧ (Instr.start 2).wf = false ∧ (Instr.abort 3).wf = false ∧
    (Instr.cmdRsvd3 4).wf = false ∧ (Instr.cmdRsvd47 8).wf = false ∧ (Instr.cmdRsvd8F 7).wf = false := by decide

theorem test_wf_refuses_bad_rounds :
    (Instr.roundF 16).wf = false ∧ (Instr.roundG 32).wf = false ∧ (Instr.roundH 48).wf = false ∧
    (Instr.roundI 15).wf = false := by decide

theorem test_wf_accepts_the_ends_of_each_row :
    (Instr.rdRsvd 0x3C).wf = true ∧ (Instr.wrDigest 0x2C 5).wf = true ∧ (Instr.wrRsvd 0x30 5).wf = true ∧
    (Instr.nop 0xFFFFFFF0).wf = true ∧ (Instr.start 0x11).wf = true ∧ (Instr.cmdRsvd47 7).wf = true ∧
    (Instr.cmdRsvd8F 15).wf = true ∧ (Instr.roundF 15).wf = true ∧ (Instr.roundI 63).wf = true := by decide

/-! ### Decoding: words written out from the spec's encodings (R71, R76, R78, R80) -/

/-- The accesses `(R, off, -)` of R71, the offsets written out bit by bit. -/
theorem test_decode_reads :
    decodeRead 0b000000 = .ok .rdId ∧ decodeRead 0b000100 = .ok .rdCtrl ∧ decodeRead 0b001000 = .ok .rdCmd ∧
    decodeRead 0b001100 = .ok .rdStatus ∧ decodeRead 0b010000 = .ok .rdSrcLo ∧ decodeRead 0b010100 = .ok .rdSrcHi ∧
    decodeRead 0b011000 = .ok .rdLenLo ∧ decodeRead 0b011100 = .ok .rdLenHi ∧ decodeRead 0b100000 = .ok .rdDigest0 ∧
    decodeRead 0b100100 = .ok .rdDigest1 ∧ decodeRead 0b101000 = .ok .rdDigest2 ∧
    decodeRead 0b101100 = .ok .rdDigest3 ∧ decodeRead 0b110100 = .ok (.rdRsvd 0x34) := by
  refine ⟨rfl, rfl, rfl, rfl, rfl, rfl, rfl, rfl, rfl, rfl, rfl, rfl, rfl⟩

/-- The accesses `(W, off, data)` of R71 that are no command. -/
theorem test_decode_writes :
    decodeWrite 0b000000 9 = .ok (.wrId 9) ∧ decodeWrite 0b000100 9 = .ok (.wrCtrl 9) ∧
    decodeWrite 0b001100 9 = .ok (.wrStatus 9) ∧ decodeWrite 0b010000 9 = .ok (.wrSrcLo 9) ∧
    decodeWrite 0b010100 9 = .ok (.wrSrcHi 9) ∧ decodeWrite 0b011000 9 = .ok (.wrLenLo 9) ∧
    decodeWrite 0b011100 9 = .ok (.wrLenHi 9) ∧ decodeWrite 0b101000 9 = .ok (.wrDigest 0x28 9) ∧
    decodeWrite 0b111100 9 = .ok (.wrRsvd 0x3C 9) := by
  refine ⟨rfl, rfl, rfl, rfl, rfl, rfl, rfl, rfl, rfl⟩

/-- The commands of R76 at offset 0x08, bits 31:4 ignored (R75). -/
theorem test_decode_commands :
    decodeWrite 0b001000 0xFFFFFFF0 = .ok (.nop 0xFFFFFFF0) ∧ decodeWrite 0b001000 0x11 = .ok (.start 0x11) ∧
    decodeWrite 0b001000 0x2 = .ok (.abort 0x2) ∧ decodeWrite 0b001000 0x3 = .ok (.cmdRsvd3 0x3) ∧
    decodeWrite 0b001000 0x4 = .ok (.cmdRsvd47 0x4) ∧ decodeWrite 0b001000 0x7 = .ok (.cmdRsvd47 0x7) ∧
    decodeWrite 0b001000 0x8 = .ok (.cmdRsvd8F 0x8) ∧ decodeWrite 0b001000 0xF = .ok (.cmdRsvd8F 0xF) := by
  refine ⟨rfl, rfl, rfl, rfl, rfl, rfl, rfl, rfl⟩

/-- The codes of R80 and the indices of R78. -/
theorem test_decode_engine_steps :
    decodeSeq 0b00 = .idle ∧ decodeSeq 0b01 = .load ∧ decodeSeq 0b10 = .round ∧ decodeSeq 0b11 = .feed ∧
    decodeRound 0b001111 = .roundF 15 ∧ decodeRound 0b010000 = .roundG 16 ∧ decodeRound 0b101111 = .roundH 47 ∧
    decodeRound 0b110000 = .roundI 48 := by decide

/-- One packet of each kind, byte by byte (log 11): `RD STATUS`, `WR SRC_LO, 0x12345678`, `WR CMD, 1`, LOAD, round 63. -/
theorem test_decode_packets :
    decode [0x0C, 1, 0, 0, 0, 0] = .ok .rdStatus ∧
    decode [0x10, 2, 0x78, 0x56, 0x34, 0x12] = .ok (.wrSrcLo 0x12345678) ∧
    decode [0x08, 2, 0x01, 0, 0, 0] = .ok (.start 1) ∧
    decode [0x01, 3, 0, 0, 0, 0] = .ok .load ∧
    decode [0x3F, 4, 0, 0, 0, 0] = .ok (.roundI 63) := by
  refine ⟨rfl, rfl, rfl, rfl, rfl⟩

/-- Packets that encode nothing are refused by name. -/
theorem test_decode_refuses_packets :
    decode [0x0C, 1, 0, 0, 0] = .error .packetLength ∧ decode [0x0C, 5, 0, 0, 0, 0] = .error .packetKind ∧
    decode [0x0C, 1, 1, 0, 0, 0] = .error .packetData ∧ decode [0x04, 3, 0, 0, 0, 0] = .error .packetSelector ∧
    decode [0x0A, 2, 0, 0, 0, 0] = .error (.access .misaligned) ∧
    decode [0x40, 1, 0, 0, 0, 0] = .error (.access .outsideBlock) := by
  refine ⟨rfl, rfl, rfl, rfl, rfl, rfl⟩

/-- R81 and the end of V 11: the refused accesses, at BASE = 0x40. -/
theorem test_decode_refuses_accesses :
    decodeAccess 0x40 ⟨.read, 8, 0x4C, 0⟩ = .error .width ∧
    decodeAccess 0x40 ⟨.write, 32, 0x4A, 0⟩ = .error .misaligned ∧
    decodeAccess 0x40 ⟨.read, 32, 0x80, 0⟩ = .error .outsideBlock ∧
    decodeAccess 0x40 ⟨.read, 32, 0x3C, 0⟩ = .error .outsideBlock := by
  refine ⟨rfl, rfl, rfl, rfl⟩

/-- A bare table word: the read at an aligned offset, else the command (log 12). -/
theorem test_decodeTableWord :
    decodeTableWord 8 0x0C = some .rdStatus ∧ decodeTableWord 8 0x01 = some (.start 1) ∧
    decodeTableWord 8 0x02 = some (.abort 2) ∧ decodeTableWord 8 0x40 = none := by
  refine ⟨rfl, rfl, rfl, rfl⟩

/-- The step after reset runs the instruction placed by withFetchWord: START of the empty message (V 11 row 16). -/
theorem test_withFetchWord_runs_start :
    nextIs (step (State.reset.withFetchWord 8 0x01)) (fun t => decide (statusOf t = 0x00000001)) = true := by decide

/-- A whole packet placed by withFetchWord: `WR CTRL, 0xFFFFFFFF` (V 11 row 4). -/
theorem test_withFetchWord_runs_write :
    nextIs (step (State.reset.withFetchWord 48 0xFFFFFFFF0204)) (fun t => decide (ctrlWord t.regs = 1)) = true := by
  decide

/-! ### Reads (V 11 rows 1, 2, 3, 5, 10, 12, 13, 32) -/

theorem test_reads_at_reset :
    State.reset.observe .rdId = some 0x4D443501 ∧ State.reset.observe .rdStatus = some 0 ∧
    State.reset.observe .rdDigest0 = some 0 ∧ State.reset.observe .rdCmd = some 0 ∧
    State.reset.observe (.rdRsvd 0x30) = some 0 := by decide

theorem test_reads_of_halves :
    (idleAt 0x123456789ABCDEF0 0x2000000000000003).observe .rdSrcLo = some 0x9ABCDEF0 ∧
    (idleAt 0x123456789ABCDEF0 0x2000000000000003).observe .rdSrcHi = some 0x12345678 ∧
    (idleAt 0 0x2000000000000003).observe .rdLenLo = some 0x00000003 ∧
    (idleAt 0 0x2000000000000003).observe .rdLenHi = some 0x20000000 := by decide

/-- The four digest reads return four different words (V 9, the empty message). -/
theorem test_reads_of_digest :
    let s := { State.reset with regs := { Regs.reset with
      digest := ⟨0xD98C1DD4, 0x04B2008F, 0x980980E9, 0x7E42F8EC⟩, irqEn := true, aborted := true, errCmd := true } }
    s.observe .rdDigest0 = some 0xD98C1DD4 ∧ s.observe .rdDigest1 = some 0x04B2008F ∧
    s.observe .rdDigest2 = some 0x980980E9 ∧ s.observe .rdDigest3 = some 0x7E42F8EC ∧
    s.observe .rdCtrl = some 1 ∧ s.observe .rdStatus = some 0x00000024 := by decide

/-! ### Register writes -/

/-- V 11 row 4: no flag is set, so irq stays 0. -/
theorem test_wrCtrl :
    nextIs (exec (.wrCtrl 0xFFFFFFFF) State.reset) (fun t => decide (ctrlWord t.regs = 1) && !t.irq) = true := by decide

/-- V 11 rows 6, 7, 8 and 9. -/
theorem test_wrStatus :
    let s := { State.reset with regs := { Regs.reset with done := true, errBusy := true, irqEn := true } }
    nextIs (exec (.wrStatus 0x00000008) s) (fun t => decide (statusOf t = 0x00000002) && t.irq) = true ∧
    nextIs (exec (.wrStatus 0xFFFFFFFF) s) (fun t => decide (statusOf t = 0) && !t.irq) = true ∧
    nextIs (exec (.wrStatus 0) s) (fun t => decide (statusOf t = 0x0000000A)) = true := by decide

/-- V 11 rows 10, 11 and 12: ADDR_W = 16, 32 and 40. -/
theorem test_wrSrc_keeps_addrW_bits :
    nextIs (exec (.wrSrcLo 0x12345678) { State.reset with platform := ⟨16, 0, []⟩ })
      (fun t => decide (t.regs.src = 0x5678)) = true ∧
    nextIs (exec (.wrSrcHi 0xFFFFFFFF) State.reset) (fun t => decide (t.regs.src = 0)) = true ∧
    nextIs (exec (.wrSrcHi 0xFFFFFFFF) { State.reset with platform := ⟨40, 0, []⟩ })
      (fun t => decide (t.regs.src = 0xFF00000000)) = true := by decide

/-- V 11 rows 13 and 29: the other half and the latched copy stay. -/
theorem test_wrLen :
    nextIs (exec (.wrLenHi 0x20000000) (idleAt 0 7)) (fun t => decide (t.regs.len = 0x2000000000000007)) = true ∧
    nextIs (exec (.wrLenLo 0x00000064) loadAbc) (fun t => decide (t.regs.len = 100 ∧ t.eng.nL = 3)) = true := by decide

/-- V 11 rows 14, 15, 30, 31 and 33: nothing changes. -/
theorem test_ignored_writes :
    nextIs (exec (.wrDigest 0x20 0x12345678) loadAbc) (fun t => decide (t = loadAbc)) = true ∧
    nextIs (exec (.wrId 0) loadAbc) (fun t => decide (t = loadAbc)) = true ∧
    nextIs (exec (.wrRsvd 0x3C 0xFFFFFFFF) loadAbc) (fun t => decide (t = loadAbc)) = true ∧
    nextIs (exec (.nop 0xFFFFFFF0) loadAbc) (fun t => decide (t = loadAbc)) = true := by decide

/-! ### Commands -/

/-- V 11 rows 18, 19, 20 and 21: the range check at the top of memory. -/
theorem test_start_range :
    nextIs (exec (.start 1) (idleAt 0xFFFFFFFF 1)) (fun t => decide (statusOf t = 1)) = true ∧
    nextIs (exec (.start 1) (idleAt 0xFFFFFFFF 2))
      (fun t => decide (statusOf t = 0x10 ∧ t.eng = (idleAt 0xFFFFFFFF 2).eng)) = true ∧
    nextIs (exec (.start 1) (idleAt 0 0x100000000))
      (fun t => decide (statusOf t = 1 ∧ t.eng.nblk = 67108865)) = true ∧
    nextIs (exec (.start 1) (idleAt 1 0x100000000)) (fun t => decide (statusOf t = 0x10)) = true := by decide

/-- V 11 rows 22, 23 and 24: the longest message; a START while busy; what an accepted START clears. -/
theorem test_start_latches :
    nextIs (exec (.start 1) { idleAt 0 0xFFFFFFFFFFFFFFFF with platform := ⟨64, 0, []⟩ })
      (fun t => decide (statusOf t = 1 ∧ t.eng.nblk = 288230376151711745 ∧ t.eng.lL = 0xFFFFFFFFFFFFFFF8)) = true ∧
    nextIs (exec (.start 1) { loadAbc with regs := { Regs.reset with src := 0xFFFFFFFF, len := 0xFFFF } })
      (fun t => decide (statusOf t = 9 ∧ t.eng = loadAbc.eng)) = true ∧
    nextIs (exec (.start 1) { State.reset with regs := { Regs.reset with done := true, errCmd := true, aborted := true } })
      (fun t => decide (statusOf t = 5)) = true := by decide

/-- V 11 rows 25 and 26. -/
theorem test_abort :
    nextIs (exec (.abort 2) loadAbc) (fun t => decide (statusOf t = 0x20 ∧ t.eng.st = .idle)) = true ∧
    nextIs (exec (.abort 2) State.reset) (fun t => decide (t = State.reset)) = true := by decide

/-- V 11 rows 27 and 28. -/
theorem test_reserved_commands :
    nextIs (exec (.cmdRsvd3 3) loadAbc) (fun t => decide (statusOf t = 5 ∧ t.eng = loadAbc.eng)) = true ∧
    nextIs (exec (.cmdRsvd47 7) State.reset) (fun t => decide (statusOf t = 4)) = true ∧
    nextIs (exec (.cmdRsvd8F 15) loadAbc) (fun t => decide (statusOf t = 5)) = true := by decide

/-! ### The engine's steps -/

/-- V 12.1, k = 1: LOAD of "abc"; W_0[0] and W_0[14] of V 7.2. -/
theorem test_load :
    nextIs (exec .load loadAbc) (fun t => decide (t.eng.st = .round ∧ t.eng.i = 0 ∧ t.eng.v = iv ∧
      t.eng.mblk[0] = 0x80636261 ∧ t.eng.mblk[1] = 0 ∧ t.eng.mblk[14] = 0x18 ∧ t.eng.mblk[15] = 0)) = true := by decide

/-- R246: a device in the message range is a fault of the platform; one beside it is none. -/
theorem test_load_device :
    faultIs (exec .load { loadAbc with platform := ⟨32, 0, [(0x1002, 4)]⟩ }) .sideEffectRead = true ∧
    nextIs (exec .load { loadAbc with platform := ⟨32, 0, [(0x1003, 4)]⟩ }) (fun t => decide (t.eng.st = .round)) = true := by
  decide

/-- V 12.1, k = 2: ROUND performs round 0 of "abc". -/
theorem test_round :
    nextIs (exec .round roundAbc) (fun t => decide (t.eng.i = 1 ∧ t.eng.st = .round ∧
      t.eng.v = ⟨0x10325476, 0xD6D117B4, 0xEFCDAB89, 0x98BADCFE⟩)) = true := by decide

/-- V 7.1, the row of round 63, through ROUND: i stays 63 and st becomes FEED (R202). -/
theorem test_round_63 :
    nextIs (exec .round (roundFrom ⟨0x30130182, 0xFF4EA3EB, 0x6E10A476, 0x7246FAD3⟩)) (fun t =>
      decide (t.eng.i = 63 ∧ t.eng.st = .feed ∧ t.eng.v = feedEmpty.eng.v)) = true := by decide

/-- V 7.1, rows 0 and 15. -/
theorem test_roundF :
    workIs (exec (.roundF 0) (roundFrom iv)) ⟨0x10325476, 0xA5202774, 0xEFCDAB89, 0x98BADCFE⟩ = true ∧
    workIs (exec (.roundF 15) (roundFrom ⟨0x70768A29, 0x5AA53F75, 0x374943A7, 0xF56C7CF1⟩))
      ⟨0xF56C7CF1, 0xD6819C6A, 0x5AA53F75, 0x374943A7⟩ = true := by decide

/-- V 7.1, rows 16 and 31. -/
theorem test_roundG :
    workIs (exec (.roundG 16) (roundFrom ⟨0xF56C7CF1, 0xD6819C6A, 0x5AA53F75, 0x374943A7⟩))
      ⟨0x374943A7, 0x1C7D7513, 0xD6819C6A, 0x5AA53F75⟩ = true ∧
    workIs (exec (.roundG 31) (roundFrom ⟨0xA0572807, 0x1C31C384, 0xAE7813DB, 0x13707036⟩))
      ⟨0x13707036, 0xA2205F1F, 0x1C31C384, 0xAE7813DB⟩ = true := by decide

/-- V 7.1, rows 32 and 41 (which reads Mblk[0]). -/
theorem test_roundH :
    workIs (exec (.roundH 32) (roundFrom ⟨0x13707036, 0xA2205F1F, 0x1C31C384, 0xAE7813DB⟩))
      ⟨0xAE7813DB, 0xDF63EAA1, 0xA2205F1F, 0x1C31C384⟩ = true ∧
    workIs (exec (.roundH 41) (roundFrom ⟨0xABC34E16, 0x4497169D, 0xC5DC8C15, 0x91CA4CB7⟩))
      ⟨0x91CA4CB7, 0x76FD93D4, 0x4497169D, 0xC5DC8C15⟩ = true := by decide

/-- V 7.1, rows 48 (which reads Mblk[0]) and 63. -/
theorem test_roundI :
    workIs (exec (.roundI 48) (roundFrom ⟨0x3F55EDFD, 0xCA7D2DBD, 0x68D84EA2, 0x22A31F54⟩))
      ⟨0x22A31F54, 0x93AA2577, 0xCA7D2DBD, 0x68D84EA2⟩ = true ∧
    workIs (exec (.roundI 63) (roundFrom ⟨0x30130182, 0xFF4EA3EB, 0x6E10A476, 0x7246FAD3⟩))
      ⟨0x7246FAD3, 0x14E45506, 0xFF4EA3EB, 0x6E10A476⟩ = true := by decide

/-- V 7.1, feedback, and R205: completion of the empty message. -/
theorem test_feed_completes :
    nextIs (exec .feed feedEmpty) (fun t => decide (t.eng.st = .idle ∧ statusOf t = 2 ∧
      t.regs.digest = ⟨0xD98C1DD4, 0x04B2008F, 0x980980E9, 0x7E42F8EC⟩)) = true := by decide

/-- R204: with another block to come, the digest stays and j moves on. -/
theorem test_feed_goes_on :
    nextIs (exec .feed { feedEmpty with eng := { feedEmpty.eng with nblk := 2 } }) (fun t => decide (t.eng.st = .load ∧
      t.eng.j = 1 ∧ statusOf t = 1 ∧ t.regs.digest = Quad.zero ∧
      t.eng.h = ⟨0xD98C1DD4, 0x04B2008F, 0x980980E9, 0x7E42F8EC⟩)) = true := by decide

/-- R200: IDLE changes nothing. -/
theorem test_idle : nextIs (exec .idle idleAbc) (fun t => decide (t = idleAbc)) = true := by decide

/-! ### The algorithm -/

/-- V 4, two rows. -/
theorem test_mixing :
    mixF 0x12345678 0x9ABCDEF0 0x0FEDCBA9 = 0x1FFDDFF1 ∧ mixG 0x12345678 0x9ABCDEF0 0x0FEDCBA9 = 0x92345678 ∧
    mixH 0x12345678 0x9ABCDEF0 0x0FEDCBA9 = 0x87654321 ∧ mixI 0x12345678 0x9ABCDEF0 0x0FEDCBA9 = 0x688AA88E ∧
    mixF 0xAAAAAAAA 0x55555555 0xFFFF0000 = 0x55550000 ∧ mixG 0xAAAAAAAA 0x55555555 0xFFFF0000 = 0xAAAA5555 := by decide

/-- V 5: rotations, and the end cases. -/
theorem test_rotl :
    rotl 0x12345678 4 = 0x23456781 ∧ rotl 0x80000001 23 = 0x00C00000 ∧ rotl 0x00000001 31 = 0x80000000 ∧
    rotl 0x12345678 0 = 0x12345678 := by decide

/-- V 6: g(16) = 1, g(32) = 5, g(48) = 0, g(63) = 9, and each phase reads every word once. -/
theorem test_word_index :
    (wordIndex 16).val = 1 ∧ (wordIndex 32).val = 5 ∧ (wordIndex 48).val = 0 ∧ (wordIndex 63).val = 9 ∧
    ∀ p : Fin 4, ((List.range 16).map fun k => wordIndex (BitVec.ofNat 6 (16 * p.val + k))).Nodup := by decide

/-- R138: 64 constants, no two alike; R139: 64 rotate amounts, from 4 to 23. -/
theorem test_tables :
    kTable.length = 64 ∧ kTable.Nodup ∧ ∀ i : BitVec 6, 4 ≤ rotateAmount i ∧ rotateAmount i ≤ 23 := by decide

/-- V 2: block counts and zero fills at the boundaries; the longest length. -/
theorem test_block_counts :
    (blockCount 0, zeroFill 0) = (1, 55) ∧ (blockCount 55, zeroFill 55) = (1, 0) ∧
    (blockCount 56, zeroFill 56) = (2, 63) ∧ (blockCount 119, zeroFill 119) = (2, 0) ∧
    (blockCount 120, zeroFill 120) = (3, 63) ∧ blockCount 0xFFFFFFFFFFFFFFFF = 288230376151711745 ∧
    bitLength 0x2000000000000001 = 8 := by decide

/-- V 2: PB of "abc". -/
theorem test_padByte :
    padByte loadAbc.eng abcMem 0 = 0x61 ∧ padByte loadAbc.eng abcMem 2 = 0x63 ∧ padByte loadAbc.eng abcMem 3 = 0x80 ∧
    padByte loadAbc.eng abcMem 4 = 0 ∧ padByte loadAbc.eng abcMem 55 = 0 ∧ padByte loadAbc.eng abcMem 56 = 0x18 ∧
    padByte loadAbc.eng abcMem 57 = 0 := by decide

/-- V 1.1: the known answer of the empty message. -/
theorem test_known_answer_empty :
    md5State [] = ⟨0xD98C1DD4, 0x04B2008F, 0x980980E9, 0x7E42F8EC⟩ := by decide +kernel

/-- V 1.1: the known answer of "abc". -/
theorem test_known_answer_abc :
    md5State [0x61, 0x62, 0x63] = ⟨0x98500190, 0xB04FD23C, 0x7D3F96D6, 0x727FE128⟩ := by decide +kernel

/-- V 10: 56 bytes 'a', two blocks. -/
theorem test_known_answer_two_blocks :
    md5State (List.replicate 56 0x61) = ⟨0xC78A0C3B, 0xB028F803, 0x70196C4C, 0x1872D106⟩ := by decide +kernel

/-- V 9: the text of the empty message's digest. -/
theorem test_hexText :
    hexText ⟨0xD98C1DD4, 0x04B2008F, 0x980980E9, 0x7E42F8EC⟩ = "d41d8cd98f00b204e9800998ecf8427e".toList := by decide

/-! ### Surroundings -/

/-- R245: a byte of the running message written while busy marks the operation; a byte beside it does not. -/
theorem test_message_write :
    nextIs (storeMessage 0x1002 [0x63] loadAbc) (fun t => t.torn) = true ∧
    nextIs (storeMessage 0x1003 [0x63] loadAbc) (fun t => !t.torn && decide (Memory.read t.mem 0x1003 = 0x63)) = true ∧
    nextIs (storeMessage 0x1002 [0] idleAbc) (fun t => !t.torn && decide (t.mem = [(0x1000, 0x61), (0x1001, 0x62)])) = true ∧
    faultIs (storeMessage 0xFFFFFFFF [1, 2] loadAbc) .addressOutsideMemory = true := by decide

/-- R81: the host's refused access stops the step with its ground. -/
theorem test_refused_step :
    refusalIs (step (State.reset.withHostOp (.access ⟨.write, 32, 0x0A, 0⟩))) (.accessRefused .misaligned) = true := by
  decide

/-- R83: WAIT reads STATUS again while busy and goes on when BUSY = 0. -/
theorem test_wait :
    nextIs (step { loadAbc with host := assemble 0 [.wait], sched := [.host] })
      (fun t => decide (t.host = assemble 0 [.wait] ∧ t.rdata = 1)) = true ∧
    nextIs (step { idleAbc with host := assemble 0 [.wait], sched := [.host] }) (fun t => decide (t.host = [])) = true := by
  decide

/-- R244: the host that waits for irq goes on only when irq is asserted. -/
theorem test_waitIrq :
    let s := { State.reset with host := [.waitIrq], regs := { Regs.reset with irqEn := true } }
    nextIs (step s) (fun t => decide (t.host = [.waitIrq])) = true ∧
    nextIs (step { s with regs := { s.regs with done := true } }) (fun t => decide (t.host = [])) = true := by decide

/-- R83: expansions. -/
theorem test_expansions :
    (Line.setSrc 0x1234567800001000).expand 0x40 =
      [.access ⟨.write, 32, 0x50, 0x00001000⟩, .access ⟨.write, 32, 0x54, 0x12345678⟩] ∧
    Line.clrst.expand 0 = [.access ⟨.write, 32, 0x0C, 0x3E⟩] ∧
    Line.rddig.expand 0 = [.access ⟨.read, 32, 0x20, 0⟩, .access ⟨.read, 32, 0x24, 0⟩, .access ⟨.read, 32, 0x28, 0⟩,
      .access ⟨.read, 32, 0x2C, 0⟩] := by decide

/-! ### Witnesses: for each statement with hypotheses, operands and states that meet them all, clause by clause -/

/-- s with one host access as the next to move. -/
def hostNext (s : State) (a : Access) : State := { s with sched := [.host], host := [.access a] }

/-- s with the engine as the next to move. -/
def engineNext (s : State) : State := { s with sched := [.engine] }

/-- idleAbc after a completed operation, an aborted one and every error. -/
def flagged : State :=
  { idleAbc with regs := { idleAbc.regs with
      done := true, errCmd := true, errBusy := true, errRange := true, aborted := true } }

theorem witness_DecodeOfEncode : (Instr.wrRsvd 0x3C 0xFFFFFFFF).wf = true ∧ (Instr.cmdRsvd8F 0xFF).wf = true := by decide

theorem witness_AccessOfInstrDecodes :
    (Instr.rdRsvd 0x3C).wf = true ∧ encodeAccess 0x40 (.rdRsvd 0x3C) = some ⟨.read, 32, 0x7C, 0⟩ ∧
    (Instr.roundI 63).wf = true ∧ encodeAccess 0x40 (.roundI 63) = none := by decide

/-- One access for each ground of refusal, and the first and the last accepted offset. -/
theorem witness_AccessDecoderIsTotal :
    (Access.mk .read 31 0x40 0).bits ≠ 32 ∧ (Access.mk .read 32 0x3F 0).addr < 0x40 ∧
    ((Access.mk .read 32 0x41 0).addr - 0x40) % 4 ≠ 0 ∧ 64 ≤ (Access.mk .read 32 0x80 0).addr - 0x40 ∧
    (0x40 - 0x40) % 4 = 0 ∧ 0x40 - 0x40 < 64 ∧ (0x7C - 0x40) % 4 = 0 ∧ 0x7C - 0x40 < 64 := by decide

theorem witness_StepRunsHostAccess :
    ∃ a i, (hostNext loadAbc a).sched = [.host] ∧ (hostNext loadAbc a).host = [.access a] ∧
      decodeAccess loadAbc.platform.base a = .ok i := ⟨⟨.read, 32, 0x3C, 0⟩, .rdRsvd 0x3C, rfl, rfl, rfl⟩

theorem witness_StepRunsEngineRow :
    ((engineNext idleAbc).sched = [.engine] ∧ (engineNext idleAbc).eng.st = .idle) ∧
    ((engineNext loadAbc).sched = [.engine] ∧ (engineNext loadAbc).eng.st = .load) ∧
    ((engineNext roundAbc).sched = [.engine] ∧ (engineNext roundAbc).eng.st = .round) ∧
    ((engineNext feedEmpty).sched = [.engine] ∧ (engineNext feedEmpty).eng.st = .feed) ∧
    (loadAbc.sched = [] ∧ loadAbc.eng.st ≠ .idle) := by decide

theorem witness_RefusedAccessStops :
    let s := hostNext loadAbc ⟨.write, 32, 0x0A, 0⟩
    s.sched = [.host] ∧ s.host = [.access ⟨.write, 32, 0x0A, 0⟩] ∧ (0x0A - s.platform.base) % 4 ≠ 0 := by decide

theorem witness_PlacedInstructionRuns :
    (Instr.rdStatus.wf = true ∧ Instr.rdStatus.row.fmt = .regRead) ∧
    ((Instr.wrDigest 0x2C 1).wf = true ∧ (Instr.wrDigest 0x2C 1).row.fmt = .regWrite) ∧
    ((Instr.start 0x11).wf = true ∧ (Instr.start 0x11).row.fmt = .cmd) ∧
    (Instr.feed.wf = true ∧ Instr.feed.row.fmt = .seq) ∧
    ((Instr.roundI 63).wf = true ∧ (Instr.roundI 63).row.fmt = .round) := by decide

theorem witness_ReadsReturnTheirRegister :
    (0x30 : BitVec 6) &&& 0x33 = 0x30 ∧ (0x3C : BitVec 6) &&& 0x33 = 0x30 := by decide

theorem witness_StatusReadBits : 6 ≤ 6 ∧ 6 ≤ 31 := by decide

theorem witness_StatusWriteOnTheWord :
    ∃ t u v, exec .rdStatus flagged = .next t ∧ exec (.wrStatus 0x08) flagged = .next u ∧ exec .rdStatus u = .next v :=
  ⟨_, _, _, rfl, rfl, rfl⟩

theorem witness_IgnoredWritesChangeNothing :
    (0x20 : BitVec 6) &&& 0x33 = 0x20 ∧ (0x2C : BitVec 6) &&& 0x33 = 0x20 ∧ (0x30 : BitVec 6) &&& 0x33 = 0x30 ∧
    (0x3C : BitVec 6) &&& 0x33 = 0x30 ∧ (0xFFFFFFF0 : Word).toNat % 16 = 0 := by decide

/-- Busy; idle and one past the top; idle and exactly at the top; the opcode. -/
theorem witness_StartCommand :
    loadAbc.eng.st ≠ .idle ∧
    ((idleAt 0xFFFFFFFF 2).eng.st = .idle ∧ 2 ^ 32 < (idleAt 0xFFFFFFFF 2).regs.src.toNat + 2) ∧
    ((idleAt 0xFFFFFFFF 1).eng.st = .idle ∧ (idleAt 0xFFFFFFFF 1).regs.src.toNat + 1 ≤ 2 ^ 32) ∧
    (0xFFFFFFF1 : Word).toNat % 16 = 1 := by decide

theorem witness_AbortCommand :
    loadAbc.eng.st ≠ .idle ∧ idleAbc.eng.st = .idle ∧ (0x12 : Word).toNat % 16 = 2 := by decide

theorem witness_ReservedCommandsSetErrCmd :
    (0x13 : Word).toNat % 16 = 3 ∧ (4 ≤ (0x4 : Word).toNat % 16 ∧ (0x4 : Word).toNat % 16 ≤ 7) ∧
    (4 ≤ (0x7 : Word).toNat % 16 ∧ (0x7 : Word).toNat % 16 ≤ 7) ∧ 8 ≤ (0x8 : Word).toNat % 16 ∧
    8 ≤ (0xFF : Word).toNat % 16 := by decide

/-- One access for each cause that an access raises. -/
theorem witness_OneAccessRaisesAtMostOneCause :
    nextIs (exec (.cmdRsvd3 3) idleAbc) (fun t => !idleAbc.regs.errCmd && t.regs.errCmd) = true ∧
    nextIs (exec (.start 1) loadAbc) (fun t => !loadAbc.regs.errBusy && t.regs.errBusy) = true ∧
    nextIs (exec (.start 1) (idleAt 1 0x100000000)) (fun t => t.regs.errRange) = true ∧
    nextIs (exec (.abort 2) loadAbc) (fun t => !loadAbc.regs.aborted && t.regs.aborted) = true ∧
    (Instr.start 1).row.fmt ≠ .seq ∧ (Instr.start 1).row.fmt ≠ .round := by decide

theorem witness_OnlyAbortChangesARunningOperation :
    (Instr.wrLenLo 9).row.fmt ≠ .seq ∧ (Instr.wrLenLo 9).row.fmt ≠ .round ∧ loadAbc.eng.st ≠ .idle ∧
    ∀ d, Instr.wrLenLo 9 ≠ .abort d := ⟨by decide, by decide, by decide, fun _ => by simp⟩

theorem witness_ErrorFlagsFallOnlyWhenAcknowledged :
    nextIs (step (hostNext flagged ⟨.write, 32, 0x0C, 0x04⟩)) (fun t => flagged.regs.errCmd && !t.regs.errCmd) = true ∧
    nextIs (step { flagged with sched := [.reset] }) (fun t => flagged.regs.errBusy && !t.regs.errBusy) = true := by decide

theorem witness_DoneRisesOnlyAtCompletion :
    nextIs (step feedEmpty) (fun t => !feedEmpty.regs.done && t.regs.done) = true := by decide

/-- BUSY rises; and falls in each of the three ways. -/
theorem witness_BusyRisesByStartFallsByEnd :
    nextIs (step (hostNext idleAbc ⟨.write, 32, 0x08, 1⟩)) (fun t => !idleAbc.eng.busy && t.eng.busy) = true ∧
    nextIs (step feedEmpty) (fun t => feedEmpty.eng.busy && !t.eng.busy) = true ∧
    nextIs (step (hostNext loadAbc ⟨.write, 32, 0x08, 2⟩)) (fun t => loadAbc.eng.busy && !t.eng.busy) = true ∧
    nextIs (step { loadAbc with sched := [.reset] }) (fun t => loadAbc.eng.busy && !t.eng.busy) = true := by decide

theorem witness_DigestChangesOnlyAtCompletionOrReset :
    nextIs (step feedEmpty) (fun t => decide (t.regs.digest ≠ feedEmpty.regs.digest)) = true := by decide

theorem witness_MixingFunctionsBitwise : 0 < 32 ∧ 31 < 32 := by decide

theorem witness_RotlIsCircular : 0 ≤ 31 ∧ 31 ≤ 31 ∧ 31 < 32 := by decide

/-- The first and the last index of each phase. -/
theorem witness_RoundRows :
    (roundFrom iv).eng.v = ⟨0x67452301, 0xEFCDAB89, 0x98BADCFE, 0x10325476⟩ ∧
    (0 : BitVec 6).toNat < 16 ∧ (15 : BitVec 6).toNat < 16 ∧
    (16 ≤ (16 : BitVec 6).toNat ∧ (16 : BitVec 6).toNat < 32) ∧
    (16 ≤ (31 : BitVec 6).toNat ∧ (31 : BitVec 6).toNat < 32) ∧
    (32 ≤ (32 : BitVec 6).toNat ∧ (32 : BitVec 6).toNat < 48) ∧
    (32 ≤ (47 : BitVec 6).toNat ∧ (47 : BitVec 6).toNat < 48) ∧
    48 ≤ (48 : BitVec 6).toNat ∧ 48 ≤ (63 : BitVec 6).toNat := by decide

/-- Of "abc": the first and the last zero byte, the first and the last length byte. -/
theorem witness_PaddedBufferShape :
    let msg : List Byte := [0x61, 0x62, 0x63]
    (msg.length < 4 ∧ 4 < (pad msg).length - 8) ∧ (msg.length < 55 ∧ 55 < (pad msg).length - 8) ∧ 0 < 8 ∧ 7 < 8 := by
  decide

/-- loadAbc's parameters are those an accepted START latched. -/
theorem latched_loadAbc : Latched loadAbc.platform loadAbc.eng := ⟨by decide, by decide, by decide, by decide⟩

theorem witness_PaddedByteIsByteOfBuffer :
    Latched loadAbc.platform loadAbc.eng ∧ 0 < 64 * loadAbc.eng.nblk.toNat ∧ 63 < 64 * loadAbc.eng.nblk.toNat :=
  ⟨latched_loadAbc, by decide, by decide⟩

theorem witness_DigestByteOrder : 0 < 4 ∧ 3 < 4 := by decide

theorem witness_TextRendering :
    0 < (digestBytes iv).length ∧ 15 < (digestBytes iv).length := by decide

theorem witness_IdleTakesNoStep : (engineNext idleAbc).eng.st = .idle ∧ (engineNext idleAbc).sched = [.engine] := by decide

/-- A message that ends at the last byte of memory, with a device just below it. -/
theorem witness_LoadStep :
    let s := { (idleAt 0xFFFFFFFF 1).acceptStart with platform := ⟨32, 0, [(0xFFFFFFFE, 1)]⟩ }
    (∀ d ∈ s.platform.devices, rangesMeet d.1 d.2 s.eng.srcL.toNat s.eng.nL.toNat = false) ∧
    s.eng.srcL.toNat + s.eng.nL.toNat ≤ 2 ^ s.platform.addrW := by decide

/-- Two memories that differ just outside "abc". -/
theorem witness_LoadReadsOnlyTheMessage :
    ∀ k, k < loadAbc.eng.nL.toNat →
      Memory.read ((0x0FFF, 7) :: abcMem) (loadAbc.eng.srcL.toNat + k) =
        Memory.read loadAbc.mem (loadAbc.eng.srcL.toNat + k) := by decide

/-- The two stops: a device on the last message byte; a latched range past the top. -/
theorem witness_LoadStops :
    (let s := { loadAbc with platform := ⟨32, 0, [(0x1002, 1)]⟩ }
     (0x1002, 1) ∈ s.platform.devices ∧ 0x1002 ≤ 0x1002 ∧ 0x1002 < 0x1002 + 1 ∧ s.eng.srcL.toNat ≤ 0x1002 ∧
       0x1002 < s.eng.srcL.toNat + s.eng.nL.toNat) ∧
    (let s := { loadAbc with platform := ⟨12, 0, []⟩ }
     (∀ d ∈ s.platform.devices, rangesMeet d.1 d.2 s.eng.srcL.toNat s.eng.nL.toNat = false) ∧
       64 * s.eng.j.toNat ≤ 0 ∧ 0 < 64 * s.eng.j.toNat + 64 ∧ 0 < s.eng.nL.toNat ∧
       2 ^ s.platform.addrW ≤ s.eng.srcL.toNat + 0) := by decide

theorem witness_RoundStep : roundAbc.eng.i ≠ 63 ∧ (roundFrom iv).eng.i = 63 := by decide

theorem witness_RoundStepRunsItsPhaseRow :
    (0 : BitVec 6).extractLsb' 4 2 = 0 ∧ (31 : BitVec 6).extractLsb' 4 2 = 1 ∧ (32 : BitVec 6).extractLsb' 4 2 = 2 ∧
    (63 : BitVec 6).extractLsb' 4 2 = 3 := by decide

/-- The last block, unmarked; and a block that another follows. -/
theorem witness_FeedStep :
    (feedEmpty.eng.j.toNat + 1 = feedEmpty.eng.nblk.toNat ∧ feedEmpty.torn = false) ∧
    (0 : BitVec 59).toNat + 1 ≠ ({ feedEmpty.eng with nblk := 2 } : Engine).nblk.toNat := by decide

theorem witness_TornCompletionDrawsTheDigest :
    let s := { feedEmpty with torn := true }
    s.torn = true ∧ s.eng.j.toNat + 1 = s.eng.nblk.toNat := by decide

theorem witness_EngineRowsFrame :
    (Instr.load.row.fmt = .seq ∧ nextIs (exec .load loadAbc) (fun _ => true) = true) ∧
    ((Instr.roundF 0).row.fmt = .round ∧ nextIs (exec (.roundF 0) roundAbc) (fun _ => true) = true) := by decide

theorem witness_AccessesFrame :
    (Instr.rdStatus.row.fmt = .regRead ∧ nextIs (exec .rdStatus loadAbc) (fun _ => true) = true) ∧
    ((Instr.wrCtrl 1).row.fmt = .regWrite ∧ nextIs (exec (.wrCtrl 1) loadAbc) (fun _ => true) = true) ∧
    ((Instr.start 1).row.fmt = .cmd ∧ nextIs (exec (.start 1) idleAbc) (fun _ => true) = true) := by decide

theorem witness_ResetInputStep : ({ loadAbc with sched := [.reset] } : State).sched = [.reset] := rfl

/-- An agent's write and the host's; past the top by one, and up to the last byte. -/
theorem witness_MessageWriteStep :
    Memory.wf loadAbc.mem = true ∧
    (({ loadAbc with sched := [.agent 0xFFFFFFFF [1, 2]] } : State).sched = [.agent 0xFFFFFFFF [1, 2]] ∧
      ([1, 2] : List Byte) ≠ [] ∧ 2 ^ loadAbc.platform.addrW < 0xFFFFFFFF + ([1, 2] : List Byte).length) ∧
    (({ loadAbc with sched := [.host], host := [.memWrite 0xFFFFFFFF [1]] } : State).host = [.memWrite 0xFFFFFFFF [1]] ∧
      0xFFFFFFFF + ([1] : List Byte).length ≤ 2 ^ loadAbc.platform.addrW) := by decide

/-- The mark rises by an agent's write of the last message byte and by the host's of the first, and falls by an accepted
START (SRC + LEN at the very top) and by reset. -/
theorem witness_TornMarksMessageWrites :
    nextIs (step { loadAbc with sched := [.agent 0x1002 [0x63]] }) (fun t => !loadAbc.torn && t.torn) = true ∧
    nextIs (step { loadAbc with sched := [.host], host := [.memWrite 0x1000 [0x61]] }) (fun t => t.torn) = true ∧
    nextIs (step (hostNext { idleAt 0xFFFFFFFF 1 with torn := true } ⟨.write, 32, 0x08, 1⟩)) (fun t => !t.torn) = true ∧
    nextIs (step { loadAbc with torn := true, sched := [.reset] }) (fun t => !t.torn) = true := by decide

theorem witness_PollReadsUntilItMatches :
    ∃ i t, decodeAccess loadAbc.platform.base ⟨.read, 32, 0x0C, 0⟩ = .ok i ∧
      exec i { loadAbc with host := [.poll 0x0C 1 0] } = .next t := ⟨.rdStatus, _, rfl, rfl⟩

theorem witness_SetSrcAndSetLenExpand :
    (let s := { idleAbc with host := (Line.setSrc 0xFFFFFFFFFFFFFFFF).expand idleAbc.platform.base ++ [HostOp.waitIrq] }
     s.sched = [] ∧ s.eng.st = .idle ∧
       s.host = (Line.setSrc 0xFFFFFFFFFFFFFFFF).expand s.platform.base ++ [HostOp.waitIrq]) ∧
    (let s := { idleAbc with host := (Line.setLen 0).expand idleAbc.platform.base }
     s.sched = [] ∧ s.eng.st = .idle ∧ s.host = (Line.setLen 0).expand s.platform.base ++ []) := by decide

theorem witness_PlatformNeverChanges : ∃ t, step loadAbc = .next t := ⟨_, rfl⟩

/-- The invariant holds of a busy engine, and its step answers. -/
theorem inv_loadAbc : Inv loadAbc := ⟨by decide, by decide, by decide, by decide, fun _ => latched_loadAbc⟩

theorem onTrack_loadAbc : OnTrack loadAbc :=
  fun _ => ⟨fun _ => rfl, fun h => absurd h (by decide), fun h => absurd h (by decide)⟩

theorem witness_StepKeepsInvariant : Inv loadAbc ∧ ∃ t, step loadAbc = .next t := ⟨inv_loadAbc, _, rfl⟩

theorem witness_StepKeepsOnTrack : Inv loadAbc ∧ OnTrack loadAbc ∧ ∃ t, step loadAbc = .next t :=
  ⟨inv_loadAbc, onTrack_loadAbc, _, rfl⟩

/-- The empty message before its FEED, every internal register as the algorithm has it. -/
def feedOnTrack : State :=
  { feedEmpty with eng := { feedEmpty.eng with
      mblk := blockOf (pad []) 0, v := roundsUpTo 64 feedEmpty.eng.h (blockOf (pad []) 0) } }

theorem witness_CompletionLeavesMd5State :
    Inv feedOnTrack ∧ OnTrack feedOnTrack ∧ feedOnTrack.torn = false ∧ feedOnTrack.eng.st = .feed ∧
      feedOnTrack.eng.j.toNat + 1 = feedOnTrack.eng.nblk.toNat := by
  have hm : feedOnTrack.message = [] := rfl
  refine ⟨⟨by decide, rfl, rfl, by decide, fun _ => ⟨by decide, by decide, by decide, by decide⟩⟩, fun _ => ?_, rfl, rfl,
    by decide⟩
  rw [hm]
  exact ⟨fun _ => rfl, fun h => absurd h (by decide), fun _ => ⟨rfl, rfl⟩⟩

/-- A message that ends at the last byte, and a device beside it. -/
theorem witness_OperationCompletesWithMd5 :
    let s := { idleAt 0xFFFFFFFD 3 with platform := ⟨32, 0, [(0xFFFFFFF0, 13)]⟩ }
    s.sched = [] ∧ s.eng.st = .idle ∧ s.regs.src.toNat + s.regs.len.toNat ≤ 2 ^ s.platform.addrW ∧
    (∀ x ∈ s.platform.devices, rangesMeet x.1 x.2 s.regs.src.toNat s.regs.len.toNat = false) ∧
    0 < 66 * ((s.regs.len.toNat + 8) / 64 + 1) ∧ 65 < 66 * ((s.regs.len.toNat + 8) / 64 + 1) := by decide

theorem witness_InternalStateCannotBeObserved :
    (feedEmpty.eng.st = .idle ↔ loadAbc.eng.st = .idle) ∧ Instr.rdStatus.row.fmt = .regRead := by decide

theorem witness_StaleInternalsAreForgotten :
    ∃ t u, idleAbc.eng.st = .idle ∧ ({ feedEmpty.eng with st := .idle } : Engine).st = .idle ∧
      idleAbc.regs.src.toNat + idleAbc.regs.len.toNat ≤ 2 ^ idleAbc.platform.addrW ∧
      exec (.start 1) idleAbc = .next t ∧
      exec (.start 1) (idleAbc.withEng { feedEmpty.eng with st := .idle }) = .next u :=
  ⟨_, _, rfl, rfl, by decide, rfl, rfl⟩

end Sys2Proof.Tests
end

section
/-! SUPPORT. The statements of spec/00_scope.md: the circular shift, the platform's parameters, and what the host can
observe of the internal state. -/

namespace Sys2Proof.Machine

/-! ### The circular shift (R10) -/

/-- `rotl` is the library's rotation. -/
theorem rotl_eq_rotateLeft (x : Word) {s : Nat} (hs : s < 32) : rotl x s = x.rotateLeft s := by
  rw [rotl, BitVec.rotateLeft_def, Nat.mod_eq_of_lt hs]

/-- Settles O27: a bit below the shift comes from the top of x, any other from s places below. -/
theorem rotlIsCircular : Obligations.RotlIsCircular := by
  intro x s k hs hk
  have hs32 : s < 32 := by omega
  rw [rotl_eq_rotateLeft x hs32, BitVec.getLsbD_rotateLeft, Nat.mod_eq_of_lt hs32]
  by_cases hks : k < s
  · have source : (k + 32 - s) % 32 = 32 - s + k := by omega
    simp [hks, source]
  · have source : (k + 32 - s) % 32 = k - s := by omega
    simp [hks, hk, source]

/-! ### The platform's parameters (R6, R7) -/

theorem storeMessage_platform {a : Nat} {bytes : List Byte} {s t : State} (h : storeMessage a bytes s = .next t) :
    t.platform = s.platform := by
  obtain ⟨-, rfl⟩ := storeMessage_next h
  rfl

/-- Settles O49: neither an instruction, nor a write of the message memory, nor reset writes the parameters. -/
theorem platformNeverChanges : Obligations.PlatformNeverChanges := by
  intro s t h
  cases step_effect h with
  | engine turn run => exact (exec_surroundings run).platform
  | reset turn eq => rw [eq, State.resetInput_platform]
  | access a rest i turn prog dec run => exact (exec_surroundings run).platform
  | write a bytes rest run => exact (storeMessage_platform run :)
  | quiet d rest eq => rw [eq]

/-! ### What the host can observe of the internal state (R17) -/

theorem Engine.busy_congr {e e' : Engine} (h : e.st = .idle ↔ e'.st = .idle) : e.busy = e'.busy := by
  simp only [Engine.busy, ne_eq, h]

theorem observe_rdStatus (s : State) : s.observe .rdStatus = some (statusWord s.regs s.eng) := rfl

/-- The STATUS word depends on the internal state through BUSY alone (R25, R174). -/
theorem statusWord_congr (r : Regs) {e e' : Engine} (h : e.busy = e'.busy) : statusWord r e = statusWord r e' := by
  rw [statusWord, statusWord, h]

/-- A read of any register but STATUS does not look at the internal state. -/
theorem observe_withEng_of_ne_rdStatus {i : Instr} (hf : i.row.fmt = .regRead) (hi : i ≠ .rdStatus) (s : State)
    (e : Engine) : (s.withEng e).observe i = s.observe i := by
  cases i
  case rdStatus => exact absurd rfl hi
  all_goals cases hf <;> rfl

/-- Settles O55: STATUS is the one register whose read looks at the internal state, and it shows BUSY alone; irq is a
function of the host-visible registers. -/
theorem internalStateCannotBeObserved : Obligations.InternalStateCannotBeObserved := by
  intro s e hidle
  refine ⟨fun i hf => ?_, rfl⟩
  by_cases hi : i = .rdStatus
  · rw [hi, observe_rdStatus, observe_rdStatus, State.withEng_regs, State.withEng_eng,
      statusWord_congr _ (Engine.busy_congr hidle)]
  · exact observe_withEng_of_ne_rdStatus hf hi s e

end Sys2Proof.Machine
end

section
/-! SUPPORT. The statements of spec/10_state.md: the invariants at reset and over every step, the sticky error flags, and
the internal registers that an accepted START and its LOAD overwrite. -/

namespace Sys2Proof.Machine

/-! ### The invariant of the engine (R31, R35, R42) -/

theorem memSize_pos (p : Platform) : 0 < memSize p := Nat.two_pow_pos p.addrW

theorem truncAddr_lt_memSize (p : Platform) (v : DWord) : (truncAddr p.addrW v).toNat < memSize p := by
  rw [toNat_truncAddr]
  exact Nat.mod_lt _ (memSize_pos p)

/-- What an accepted START latches is consistent, when the range it accepts lies in memory. -/
theorem Latched.latch {p : Platform} (e : Engine) {src len : DWord} (range : src.toNat + len.toNat ≤ memSize p) :
    Latched p (e.latch src len) where
  range := range
  bits  := rfl
  count := Nat.mod_eq_of_lt (blockCount_lt len)
  index := by
    rw [Engine.latch_nblk, BitVec.toNat_ofNat, Nat.mod_eq_of_lt (blockCount_lt len)]
    exact Nat.succ_pos _

/-- The latched parameters stay consistent when none of them changes and j stays below nblk. -/
theorem Latched.of_params {p : Platform} {e e' : Engine} (hl : Latched p e) (srcL : e'.srcL = e.srcL)
    (nL : e'.nL = e.nL) (lL : e'.lL = e.lL) (nblk : e'.nblk = e.nblk) (j : e'.j.toNat < e.nblk.toNat) :
    Latched p e' where
  range := by rw [srcL, nL]; exact hl.range
  bits  := by rw [lL, nL]; exact hl.bits
  count := by rw [nblk, nL]; exact hl.count
  index := by rw [nblk]; exact j

/-- j + 1 does not wrap: j is below nblk, which has the same width. -/
theorem Latched.toNat_succ_j {p : Platform} {e : Engine} (hl : Latched p e) : (e.j + 1).toNat = e.j.toNat + 1 := by
  have hj := hl.index
  have hn := e.nblk.isLt
  bv_omega

/-- The invariant from its parts, for a next state on the same platform with the same memory. -/
theorem Inv.of_sameMemory {s t : State} (hi : Inv s) (platform : t.platform = s.platform) (mem : t.mem = s.mem)
    (src : t.regs.src.toNat < memSize s.platform) (latched : t.eng.busy = true → Latched s.platform t.eng) : Inv t where
  platform := by rw [platform]; exact hi.platform
  memWf    := by rw [mem]; exact hi.memWf
  memBelow := by rw [platform, mem]; exact hi.memBelow
  src      := by rw [platform]; exact src
  latched  := by rw [platform]; exact latched

/-- The invariant does not look at the host's program, the schedule or the data of the last read. -/
theorem Inv.withSurroundings {s : State} (hi : Inv s) (d : Word) (rest : List HostOp) (turns : List Turn) :
    Inv { s with rdata := d, host := rest, sched := turns } :=
  hi.of_sameMemory rfl rfl hi.src hi.latched

theorem Inv.resetInput {s : State} (hi : Inv s) : Inv s.resetInput :=
  hi.of_sameMemory rfl rfl (memSize_pos s.platform) fun hb => absurd hb (Bool.eq_false_iff.mp rfl)

theorem Inv.storeMessage {a : Nat} {bytes : List Byte} {s t : State} (hi : Inv s)
    (h : storeMessage a bytes s = .next t) : Inv t := by
  obtain ⟨fits, rfl⟩ := storeMessage_next h
  refine ⟨hi.platform, Memory.wf_writeBytes hi.memWf a bytes, ?_, hi.src, hi.latched⟩
  rcases fits with rfl | fits
  · exact hi.memBelow
  · exact Memory.below_writeBytes hi.memBelow fits

theorem Inv.execAccess {i : Instr} (hs : i.row.fmt ≠ .seq) (hr : i.row.fmt ≠ .round) {s t : State} (hi : Inv s)
    (h : exec i s = .next t) : Inv t := by
  have same := exec_surroundings h
  cases exec_access_effect hs hr h with
  | keeps eng torn digest src done =>
    refine hi.of_sameMemory same.platform same.mem ?_ (by rw [eng]; exact hi.latched)
    rcases src with src | ⟨v, src⟩ <;> rw [src]
    · exact hi.src
    · exact truncAddr_lt_memSize s.platform v
  | accepts d instr idle range eq =>
    subst eq
    exact hi.of_sameMemory rfl rfl hi.src fun _ => Latched.latch s.eng range
  | stops d instr busy eq =>
    subst eq
    exact hi.of_sameMemory rfl rfl hi.src fun hb => absurd hb (by simp [Engine.busy])

theorem Inv.execEngine {s t : State} (hi : Inv s) (h : exec (decodeEngine s.eng) s = .next t) : Inv t := by
  have latched (hst : s.eng.st ≠ .idle) : Latched s.platform s.eng := hi.latched ((Engine.busy_iff _).mpr hst)
  cases exec_engine_effect rfl h with
  | idle st eq => rw [eq]; exact hi
  | load st eq =>
    have hl := latched (by simp [st])
    subst eq
    exact hi.of_sameMemory rfl rfl hi.src fun _ => hl.of_params rfl rfl rfl rfl hl.index
  | round st eq =>
    have hl := latched (by simp [st])
    subst eq
    exact hi.of_sameMemory rfl rfl hi.src fun _ =>
      hl.of_params (by simp) (by simp) (by simp) (by simp) (by simpa using hl.index)
  | next st more eq =>
    have hl := latched (by simp [st])
    have hj : (s.eng.j + 1).toNat < s.eng.nblk.toNat := by
      have := hl.index
      rw [hl.toNat_succ_j]
      omega
    subst eq
    exact hi.of_sameMemory rfl rfl hi.src fun _ => hl.of_params rfl rfl rfl rfl hj
  | complete st last eq =>
    subst eq
    exact hi.of_sameMemory rfl rfl (by simpa using hi.src) fun hb => absurd hb (by simp [Engine.busy])

/-- Settles O51, by what a step can do: each of them keeps the invariant. -/
theorem stepKeepsInvariant : Obligations.StepKeepsInvariant := by
  intro s t hi h
  cases step_effect h with
  | engine turn run => exact (hi.withSurroundings s.rdata s.host s.sched.tail).execEngine run
  | reset turn eq => rw [eq]; exact (hi.withSurroundings s.rdata s.host s.sched.tail).resetInput
  | access a rest i turn prog dec run =>
    obtain ⟨hs, hr⟩ := decodeAccess_fmt dec
    exact (hi.withSurroundings s.rdata rest s.sched.tail).execAccess hs hr run
  | write a bytes rest run => exact (hi.withSurroundings s.rdata rest s.sched.tail).storeMessage run
  | quiet d rest eq => rw [eq]; exact hi.withSurroundings d rest s.sched.tail

/-! ### The block that LOAD forms (R105, R120, R201) -/

theorem length_message (s : State) : s.message.length = s.eng.nL.toNat := by simp [State.message]

theorem getElem?_message (s : State) {k : Nat} (hk : k < s.eng.nL.toNat) :
    s.message[k]? = some (Memory.read s.mem (s.eng.srcL.toNat + k)) := by
  simp [State.message, hk]

/-- The message depends on the latched range and on the bytes in it. -/
theorem message_congr {s t : State} (srcL : t.eng.srcL = s.eng.srcL) (nL : t.eng.nL = s.eng.nL)
    (bytes : ∀ k, k < s.eng.nL.toNat →
      Memory.read t.mem (s.eng.srcL.toNat + k) = Memory.read s.mem (s.eng.srcL.toNat + k)) :
    t.message = s.message := by
  rw [State.message, State.message, srcL, nL]
  exact List.map_congr_left fun k hk => bytes k (List.mem_range.mp hk)

theorem message_withEng {s : State} {e : Engine} (srcL : e.srcL = s.eng.srcL) (nL : e.nL = s.eng.nL) :
    (s.withEng e).message = s.message :=
  message_congr srcL nL fun _ _ => rfl

/-- PB(k) is byte k of the padded buffer, region by region: message, marker, zeros, length. -/
theorem getElem?_pad_eq_padByte {s : State} (hl : Latched s.platform s.eng) {k : Nat} (hk : k < 64 * s.eng.nblk.toNat) :
    (pad s.message)[k]? = some (padByte s.eng s.mem k) := by
  have hlen := length_message s
  have hcount : s.eng.nblk.toNat = blockCount s.message.length := by rw [hlen, hl.count]
  unfold padByte
  split_ifs with message marker zero
  · rw [getElem?_pad_message _ (hlen ▸ message), getElem?_message s message]
  · rw [marker, ← hlen, getElem?_pad_marker]
  · exact getElem?_pad_zero _ (by omega) (hcount ▸ zero)
  · obtain ⟨t, ht⟩ : ∃ t, k = 64 * s.eng.nblk.toNat - 8 + t := ⟨k - (64 * s.eng.nblk.toNat - 8), by omega⟩
    have hlL : s.eng.lL = BitVec.ofNat 64 (8 * s.message.length) := by rw [hl.bits, bitLength, hlen]
    rw [ht, Nat.add_sub_cancel_left, hcount, getElem?_pad_length _ (by omega), hlL]

/-- LOAD forms block j of the padded buffer. -/
theorem loadWords_eq_blockOf {s : State} (hl : Latched s.platform s.eng) :
    loadWords s.eng s.mem = blockOf (pad s.message) s.eng.j.toNat := by
  refine blockWords_congr fun t ht => ?_
  have hj := hl.index
  rw [List.getD_eq_getElem?_getD, getElem?_pad_eq_padByte hl (by omega), Option.getD_some]

/-! ### What a write of the message memory leaves alone (R56, R245) -/

theorem storeMessage_regs {a : Nat} {bytes : List Byte} {s t : State} (h : storeMessage a bytes s = .next t) :
    t.regs = s.regs := by
  obtain ⟨-, rfl⟩ := storeMessage_next h
  rfl

theorem storeMessage_eng {a : Nat} {bytes : List Byte} {s t : State} (h : storeMessage a bytes s = .next t) :
    t.eng = s.eng := by
  obtain ⟨-, rfl⟩ := storeMessage_next h
  rfl

/-- No write of the message memory takes a mark away. -/
theorem storeMessage_unmarked {a : Nat} {bytes : List Byte} {s t : State} (h : storeMessage a bytes s = .next t)
    (unmarked : t.torn = false) : s.torn = false :=
  Bool.eq_false_iff.mpr fun marked => Bool.eq_false_iff.mp unmarked ((storeMessage_torn h).mpr (.inl marked))

/-- A write that leaves a running operation unmarked leaves its message as it was. -/
theorem storeMessage_message {a : Nat} {bytes : List Byte} {s t : State} (h : storeMessage a bytes s = .next t)
    (busy : s.eng.st ≠ .idle) (unmarked : t.torn = false) : t.message = s.message := by
  have untouched := mt (storeMessage_torn h).mpr (Bool.eq_false_iff.mp unmarked)
  obtain ⟨-, rfl⟩ := storeMessage_next h
  refine message_congr rfl rfl fun k hk => Memory.read_writeBytes_other ?_
  by_contra inside
  exact untouched (.inr ⟨busy, s.eng.srcL.toNat + k - a, by omega, by omega, by omega⟩)

/-! ### Where the engine stands in the algorithm (R42, R147) -/

/-- What `OnTrack` says of the internal registers, for a given message. -/
def Engine.Tracks (msg : List Byte) (e : Engine) : Prop :=
  (e.busy = true → e.h = stateAfter (pad msg) e.j.toNat) ∧
  (e.st = .round → e.mblk = blockOf (pad msg) e.j.toNat ∧ e.v = roundsUpTo e.i.toNat e.h e.mblk) ∧
  (e.st = .feed → e.mblk = blockOf (pad msg) e.j.toNat ∧ e.v = roundsUpTo 64 e.h e.mblk)

theorem onTrack_iff (s : State) : OnTrack s ↔ (s.torn = false → s.eng.Tracks s.message) := Iff.rfl

theorem Engine.tracks_of_idle {msg : List Byte} {e : Engine} (st : e.st = .idle) : e.Tracks msg := by
  simp [Engine.Tracks, Engine.busy, st]

theorem Engine.tracks_of_load {msg : List Byte} {e : Engine} (st : e.st = .load)
    (h : e.h = stateAfter (pad msg) e.j.toNat) : e.Tracks msg := by
  simp [Engine.Tracks, st, h]

theorem Engine.Tracks.running {msg : List Byte} {e : Engine} (ht : e.Tracks msg) (st : e.st ≠ .idle) :
    e.h = stateAfter (pad msg) e.j.toNat :=
  ht.1 ((Engine.busy_iff e).mpr st)

/-- LOAD: no round is done yet. -/
theorem Engine.Tracks.enterBlock {msg : List Byte} {e : Engine} (ht : e.Tracks msg) (st : e.st = .load)
    {w : Vector Word 16} (hw : w = blockOf (pad msg) e.j.toNat) : (e.enterBlock w).Tracks msg :=
  ⟨fun _ => ht.running (by simp [st]), fun _ => ⟨hw, rfl⟩, fun hf => absurd hf (by simp)⟩

theorem Engine.advance_of_last {e : Engine} (last : e.i = 63) : e.advance = { e with st := .feed } := if_pos last

theorem Engine.advance_of_not_last {e : Engine} (last : e.i ≠ 63) : e.advance = { e with i := e.i + 1 } := if_neg last

/-- ROUND: round i follows the rounds before i; after round 63 all 64 are done. -/
theorem Engine.Tracks.advance {msg : List Byte} {e : Engine} (ht : e.Tracks msg) (st : e.st = .round) :
    Engine.Tracks msg { e with v := roundAt e.i e.v e.mblk }.advance := by
  obtain ⟨mblk, work⟩ := ht.2.1 st
  have running := ht.running (by simp [st])
  have work' : roundAt e.i e.v e.mblk = roundsUpTo (e.i.toNat + 1) e.h e.mblk := by
    rw [roundsUpTo_succ, BitVec.ofNat_toNat, BitVec.setWidth_eq, ← work]
  by_cases last : e.i = 63
  · rw [Engine.advance_of_last (e := { e with v := roundAt e.i e.v e.mblk }) last]
    have all : e.i.toNat + 1 = 64 := by rw [last]; rfl
    exact ⟨fun _ => running, fun hr => absurd hr (by simp), fun _ => ⟨mblk, all ▸ work'⟩⟩
  · have succ : (e.i + 1).toNat = e.i.toNat + 1 := by bv_omega
    rw [Engine.advance_of_not_last (e := { e with v := roundAt e.i e.v e.mblk }) last]
    exact ⟨fun _ => running, fun _ => ⟨mblk, succ ▸ work'⟩, fun hf => absurd (st.symm.trans hf) (by decide)⟩

/-- FEED: the feedback after all 64 rounds is the compression of block j. -/
theorem Engine.Tracks.feedback {msg : List Byte} {e : Engine} (ht : e.Tracks msg) (st : e.st = .feed) :
    e.h.add e.v = stateAfter (pad msg) (e.j.toNat + 1) := by
  obtain ⟨mblk, work⟩ := ht.2.2 st
  rw [stateAfter_succ, compress, ← ht.running (by simp [st]), ← mblk, ← work]

theorem onTrack_reset : OnTrack State.reset := (onTrack_iff _).mpr fun _ => Engine.tracks_of_idle rfl

theorem OnTrack.resetInput (s : State) : OnTrack s.resetInput :=
  (onTrack_iff _).mpr fun _ => Engine.tracks_of_idle rfl

theorem OnTrack.storeMessage {a : Nat} {bytes : List Byte} {s t : State} (ho : OnTrack s)
    (h : storeMessage a bytes s = .next t) : OnTrack t := by
  rw [onTrack_iff] at ho ⊢
  intro unmarked
  rw [storeMessage_eng h]
  by_cases st : s.eng.st = .idle
  · exact Engine.tracks_of_idle st
  · rw [storeMessage_message h st unmarked]
    exact ho (storeMessage_unmarked h unmarked)

theorem OnTrack.execAccess {i : Instr} (hs : i.row.fmt ≠ .seq) (hr : i.row.fmt ≠ .round) {s t : State}
    (ho : OnTrack s) (h : exec i s = .next t) : OnTrack t := by
  rw [onTrack_iff] at ho ⊢
  intro unmarked
  have same := exec_surroundings h
  cases exec_access_effect hs hr h with
  | keeps eng torn digest src done =>
    have msg : t.message = s.message := by rw [State.message, State.message, eng, same.mem]
    rw [msg, eng]
    exact ho (torn ▸ unmarked)
  | accepts d instr idle range eq =>
    subst eq
    exact Engine.tracks_of_load rfl rfl
  | stops d instr busy eq =>
    subst eq
    exact Engine.tracks_of_idle rfl

theorem OnTrack.execEngine {s t : State} (hi : Inv s) (ho : OnTrack s)
    (h : exec (decodeEngine s.eng) s = .next t) : OnTrack t := by
  rw [onTrack_iff] at ho ⊢
  intro unmarked
  have latched (hst : s.eng.st ≠ .idle) : Latched s.platform s.eng := hi.latched ((Engine.busy_iff _).mpr hst)
  cases exec_engine_effect rfl h with
  | idle st eq => rw [eq]; exact ho (eq ▸ unmarked)
  | load st eq =>
    subst eq
    exact (ho unmarked).enterBlock st (loadWords_eq_blockOf (latched (by simp [st])))
  | round st eq =>
    subst eq
    rw [message_withEng (by simp) (by simp)]
    exact (ho unmarked).advance st
  | next st more eq =>
    subst eq
    refine Engine.tracks_of_load rfl ?_
    rw [State.nextBlock_eng, (latched (by simp [st])).toNat_succ_j]
    exact (ho unmarked).feedback st
  | complete st last eq =>
    subst eq
    exact Engine.tracks_of_idle rfl

/-- Settles O52, by what a step can do: LOAD, ROUND and FEED each carry the algorithm one step on, and whatever else
moves leaves the operation as it is, marks it, starts it or ends it. -/
theorem stepKeepsOnTrack : Obligations.StepKeepsOnTrack := by
  intro s t hi ho h
  cases step_effect h with
  | engine turn run => exact OnTrack.execEngine (hi.withSurroundings s.rdata s.host s.sched.tail) ho run
  | reset turn eq => rw [eq]; exact OnTrack.resetInput _
  | access a rest i turn prog dec run =>
    obtain ⟨hs, hr⟩ := decodeAccess_fmt dec
    exact OnTrack.execAccess (s := { s with sched := s.sched.tail, host := rest }) hs hr ho run
  | write a bytes rest run =>
    exact OnTrack.storeMessage (s := { s with sched := s.sched.tail, host := rest }) ho run
  | quiet d rest eq => rw [eq]; exact ho

/-- Settles O50: after reset the engine is idle, SRC is 0 and nothing is listed in memory. -/
theorem invariantAtReset : Obligations.InvariantAtReset :=
  ⟨⟨by decide, rfl, rfl, memSize_pos _, fun hb => absurd hb (by decide)⟩, onTrack_reset⟩

/-! ### The error flags are sticky (R24, R227) -/

/-- An error flag falls from r to r'. -/
def Regs.ErrorFalls (r r' : Regs) : Prop :=
  (r.errCmd = true ∧ r'.errCmd = false) ∨ (r.errBusy = true ∧ r'.errBusy = false) ∨
    (r.errRange = true ∧ r'.errRange = false)

theorem Regs.not_errorFalls_self (r : Regs) : ¬ r.ErrorFalls r := by simp [Regs.ErrorFalls]

theorem exec_not_errorFalls {i : Instr} {s t : State} (h : exec i s = .next t) (hi : ∀ d, i ≠ .wrStatus d) :
    ¬ s.regs.ErrorFalls t.regs := by
  obtain ⟨cmd, busy, range⟩ := exec_errors_kept h hi
  rintro (⟨up, down⟩ | ⟨up, down⟩ | ⟨up, down⟩)
  · simp [cmd up] at down
  · simp [busy up] at down
  · simp [range up] at down

theorem decodeEngine_ne_wrStatus (e : Engine) (d : Word) : decodeEngine e ≠ .wrStatus d := by
  rw [decodeEngine_eq]
  cases e.st <;> exact Instr.noConfusion

/-- Settles O22: of all that a step can do, only reset and a write of STATUS lower an error flag, and the write lowers
those it names. -/
theorem errorFlagsFallOnlyWhenAcknowledged : Obligations.ErrorFlagsFallOnlyWhenAcknowledged := by
  intro s t h (falls : s.regs.ErrorFalls t.regs)
  cases step_effect h with
  | engine turn run =>
    exact absurd falls (exec_not_errorFalls (s := { s with sched := s.sched.tail }) run
      (decodeEngine_ne_wrStatus s.eng))
  | reset turn eq => exact .inl turn
  | access a rest i turn prog dec run =>
    by_cases hw : ∃ d, i = .wrStatus d
    · obtain ⟨d, rfl⟩ := hw
      refine .inr ⟨a, rest, d, turn, prog, dec, ?_⟩
      cases run
      simp [Bool.and_comm]
    · exact absurd falls (exec_not_errorFalls (s := { s with sched := s.sched.tail, host := rest }) run
        fun d hd => hw ⟨d, hd⟩)
  | write a bytes rest run =>
    rw [storeMessage_regs run] at falls
    exact absurd falls (Regs.not_errorFalls_self _)
  | quiet d rest eq =>
    rw [eq] at falls
    exact absurd falls (Regs.not_errorFalls_self _)

/-! ### Stale internal registers (R45, R210) -/

/-- START on an idle engine, with a range inside memory, is accepted (R181). -/
theorem execStart_accepted {s : State} (d : Word) (idle : s.eng.st = .idle)
    (range : s.regs.src.toNat + s.regs.len.toNat ≤ memSize s.platform) : exec (.start d) s = .next s.acceptStart := by
  have inRange : s.startOutOfRange = false := decide_eq_false (Nat.not_lt.mpr range)
  simp [exec, execStart, (Engine.busy_eq_false_iff _).mpr idle, inRange]

/-- LOAD after START writes each internal register that START leaves (R201). -/
theorem Engine.latch_enterBlock (e e' : Engine) (src len : DWord) (w : Vector Word 16) :
    (e.latch src len).enterBlock w = (e'.latch src len).enterBlock w := rfl

/-- The words that LOAD forms depend on what START latches alone. -/
theorem loadWords_latch (e e' : Engine) (src len : DWord) (m : Memory) :
    loadWords (e.latch src len) m = loadWords (e'.latch src len) m := rfl

/-- Whether LOAD stops, and what it leaves, depend on what START latches alone. -/
theorem execLoad_acceptStart_withEng (s : State) (e : Engine) :
    execLoad (s.withEng e).acceptStart = execLoad s.acceptStart := by
  have device : (s.withEng e).acceptStart.messageTouchesDevice = s.acceptStart.messageTouchesDevice := rfl
  have inMemory : (s.withEng e).acceptStart.blockInMemory = s.acceptStart.blockInMemory := rfl
  have entered (w : Vector Word 16) : (s.withEng e).acceptStart.withEng ((e.latch s.regs.src s.regs.len).enterBlock w) =
      s.acceptStart.withEng ((s.eng.latch s.regs.src s.regs.len).enterBlock w) := by
    rw [Engine.latch_enterBlock e s.eng]; rfl
  simp only [execLoad, device, inMemory, State.acceptStart_eng, State.acceptStart_mem, State.withEng_eng,
    State.withEng_regs, State.withEng_mem, loadWords_latch e s.eng, entered]

/-- Settles O56: both STARTs are accepted, and the two LOADs agree. -/
theorem staleInternalsAreForgotten : Obligations.StaleInternalsAreForgotten := by
  intro s t u e d idle idle' range ht hu
  cases (execStart_accepted d idle range).symm.trans ht
  cases (execStart_accepted (s := s.withEng e) d idle' range).symm.trans hu
  exact (execLoad_acceptStart_withEng s e).symm

end Sys2Proof.Machine
end

section
/-! SUPPORT. The statements of spec/20_memory.md: who moves next and what its turn runs, the one instruction placed as the
next to run, the addresses that LOAD reads, what each kind of access leaves alone, and the write of the message memory. -/

namespace Sys2Proof.Machine

/-! ### The turn at the head of the schedule (R62) -/

theorem step_of_sched {s : State} {turn : Turn} {turns : List Turn} (h : s.sched = turn :: turns) :
    step s = takeTurn turn { s with sched := turns } := by
  rw [step, State.nextTurn, h, List.tail_cons]

theorem step_of_engineTurn {s : State} {turns : List Turn} (h : s.sched = .engine :: turns) :
    step s = exec (decodeEngine s.eng) { s with sched := turns } := step_of_sched h

theorem step_of_hostTurn {s : State} {turns : List Turn} (h : s.sched = .host :: turns) :
    step s = hostTurn { s with sched := turns } := step_of_sched h

theorem hostTurn_of_access {s : State} {a : Access} {rest : List HostOp} (h : s.host = .access a :: rest) :
    hostTurn s = hostAccess a { s with host := rest } := by
  rw [hostTurn, h]

theorem hostTurn_of_memWrite {s : State} {a : Nat} {bytes : List Byte} {rest : List HostOp}
    (h : s.host = .memWrite a bytes :: rest) : hostTurn s = storeMessage a bytes { s with host := rest } := by
  rw [hostTurn, h]

theorem hostAccess_of_ok {s : State} {a : Access} {i : Instr} (h : decodeAccess s.platform.base a = .ok i) :
    hostAccess a s = exec i s := by
  rw [hostAccess, h]

/-- Settles O5: the turn is the host's, its item is the access, and the access is decoded and run. -/
theorem stepRunsHostAccess : Obligations.StepRunsHostAccess := by
  intro s a rest turns i sched host dec
  calc step s
    _ = hostTurn { s with sched := turns } := step_of_hostTurn sched
    _ = hostAccess a { s with host := rest, sched := turns } := hostTurn_of_access host
    _ = exec i { s with host := rest, sched := turns } := hostAccess_of_ok dec

/-! ### The placed instruction (R62, R200; log 12, 13) -/

/-- The selector byte of a register access is its selector. -/
theorem toNat_selectorByte {i : Instr} (hf : i.row.fmt = .regRead ∨ i.row.fmt = .regWrite) :
    i.selectorByte.toNat = i.selector.toNat := by
  have hs : i.selectorByte = i.selector.zeroExtend 8 := by
    rcases hf with hf | hf <;> rw [Instr.selectorByte, hf]
  rw [hs]
  exact BitVec.toNat_setWidth_of_le (by decide)

/-- An aligned offset in the block, given as its 6 bits. -/
theorem decodeAccess_selector (base : Nat) (dir : Dir) (off : BitVec 6) (d : Word) (h : off.toNat % 4 = 0) :
    decodeAccess base ⟨dir, 32, base + off.toNat, d⟩ = decodeOffset dir off d := by
  rw [decodeAccess_at base off.toNat dir d h off.isLt, BitVec.ofNat_toNat, BitVec.setWidth_eq]

/-- The access that carries a well-formed instruction decodes to it at every BASE (R70, R84). -/
theorem decodeAccess_of_encodeAccess {base : Nat} {i : Instr} {a : Access} (hw : i.wf = true)
    (ha : encodeAccess base i = some a) : decodeAccess base a = .ok i := by
  rw [encodeAccess] at ha
  split at ha <;> cases ha
  case h_1 hf =>
    rw [toNat_selectorByte (.inl hf), decodeAccess_selector _ _ _ _ (selector_aligned hw (.inl hf))]
    exact decodeRead_of_wf hw hf
  case h_2 hf =>
    rw [toNat_selectorByte (.inr hf), decodeAccess_selector _ _ _ _ (selector_aligned hw (.inr hf))]
    exact decodeWrite_of_wf hw hf
  case h_3 hf =>
    have offset : i.selectorByte = 0x08 := by rw [Instr.selectorByte, hf]
    rw [offset]
    exact (decodeAccess_cmd base i.data).trans (congrArg Except.ok (decodeCmd_of_wf hw hf))

/-- A placed access runs at the state it was placed in. -/
theorem step_withHostOp {s : State} {a : Access} {i : Instr} (dec : decodeAccess s.platform.base a = .ok i) :
    step (s.withHostOp (.access a)) = exec i s :=
  stepRunsHostAccess (s.withHostOp (.access a)) a s.host s.sched i rfl rfl dec

theorem step_placeInstr_access {s : State} {i : Instr} {a : Access} (hw : i.wf = true)
    (ha : encodeAccess s.platform.base i = some a) : step (s.placeInstr i) = exec i s := by
  have placed : s.placeInstr i = s.withHostOp (.access a) := by rw [State.placeInstr, ha]
  rw [placed, step_withHostOp (decodeAccess_of_encodeAccess hw ha)]

/-- A placed engine step runs the row of the state it was placed at. -/
theorem step_withEngineAt (s : State) (st : SeqState) :
    step (s.withEngineAt st) = exec (decodeSeq st.code) (s.withEng { s.eng with st := st }) :=
  step_of_engineTurn (s := s.withEngineAt st) rfl

theorem step_withRoundAt (s : State) (i : BitVec 6) :
    step (s.withRoundAt i) = exec .round (s.withEng { s.eng with st := .round, i := i }) := by
  rw [step_of_engineTurn (s := s.withRoundAt i) rfl, decodeEngine_eq]
  rfl

theorem SeqState.code_ofCode (c : BitVec 2) : (SeqState.ofCode c).code = c := by
  revert c; decide

/-- The row at the code of a seq instruction is that instruction (R80). -/
theorem decodeSeq_code_ofCode {i : Instr} (hf : i.row.fmt = .seq) :
    decodeSeq (SeqState.ofCode (i.selector.extractLsb' 0 2)).code = i := by
  rw [SeqState.code_ofCode, ← BitVec.setWidth_eq_extractLsb' (by decide)]
  exact decodeSeq_of_wf hf

/-- Settles O8, by the format: an access decodes back to the instruction placed, and `st` selects the engine's row. -/
theorem placedInstructionRuns : Obligations.PlacedInstructionRuns := by
  intro s i hw
  split
  case h_1 hf | h_2 hf | h_3 hf => exact step_placeInstr_access hw (by rw [encodeAccess, hf])
  case h_4 hf =>
    rw [State.placeInstr, encodeAccess, hf]
    exact (step_withEngineAt s _).trans (by rw [decodeSeq_code_ofCode hf])
  case h_5 hf =>
    rw [State.placeInstr, encodeAccess, hf]
    exact step_withRoundAt s i.selector

/-! ### What LOAD reads (R52) -/

/-- PB(k) looks at memory inside the latched message only. -/
theorem padByte_congr {e : Engine} {m m' : Memory}
    (h : ∀ k, k < e.nL.toNat → m'.read (e.srcL.toNat + k) = m.read (e.srcL.toNat + k)) (k : Nat) :
    padByte e m' k = padByte e m k := by
  unfold padByte
  split
  · next hk => exact h k hk
  · rfl

theorem loadWords_congr {e : Engine} {m m' : Memory}
    (h : ∀ k, k < e.nL.toNat → m'.read (e.srcL.toNat + k) = m.read (e.srcL.toNat + k)) :
    loadWords e m' = loadWords e m :=
  blockWords_congr fun _ _ => padByte_congr h _

/-- LOAD looks at memory in the words it forms alone: whether it stops is fixed by the platform and the latched range. -/
theorem execLoad_withMem {s : State} {m : Memory} (h : loadWords s.eng m = loadWords s.eng s.mem) :
    execLoad { s with mem := m } = mapNext (fun t => { t with mem := m }) (execLoad s) := by
  have device : ({ s with mem := m } : State).messageTouchesDevice = s.messageTouchesDevice := rfl
  have inMemory : ({ s with mem := m } : State).blockInMemory = s.blockInMemory := rfl
  rw [execLoad, execLoad, device, inMemory, h]
  split
  · rfl
  · split <;> rfl

/-- Settles O35: the words that LOAD forms are the same in both memories, and nothing else of LOAD reads memory. -/
theorem loadReadsOnlyTheMessage : Obligations.LoadReadsOnlyTheMessage :=
  fun _ _ agree => execLoad_withMem (loadWords_congr agree)

/-! ### What each kind of access leaves alone (R52, R58) -/

/-- A register write answers in every state, and replaces registers other than DIGEST0..3 alone. -/
theorem exec_regWrite {i : Instr} (hf : i.row.fmt = .regWrite) (s : State) :
    ∃ r : Regs, exec i s = .next (s.withRegs r) ∧ r.digest = s.regs.digest := by
  cases i
  case wrId | wrDigest | wrRsvd => exact ⟨s.regs, rfl, rfl⟩
  case wrCtrl | wrStatus | wrSrcLo | wrSrcHi | wrLenLo | wrLenHi => exact ⟨_, rfl, rfl⟩
  all_goals cases hf

/-- Everything a command can do: nothing, take a cause, accept a START, or stop the operation. -/
inductive CommandEffect (s t : State) : Prop where
  | nothing (eq : t = s)
  | raises (c : Cause) (eq : t = s.raise c)
  | accepts (eq : t = s.acceptStart)
  | stops (eq : t = (s.withEng { s.eng with st := .idle }).raise .aborted)

theorem exec_cmd_effect {i : Instr} (hf : i.row.fmt = .cmd) {s t : State} (h : exec i s = .next t) :
    CommandEffect s t := by
  cases i
  case nop => cases h; exact .nothing rfl
  case start =>
    rw [exec, execStart] at h
    split at h
    · cases h; exact .raises .errBusy rfl
    · split at h <;> cases h
      · exact .raises .errRange rfl
      · exact .accepts rfl
  case abort =>
    rw [exec, execAbort] at h
    split at h <;> cases h
    · exact .stops rfl
    · exact .nothing rfl
  case cmdRsvd3 | cmdRsvd47 | cmdRsvd8F => cases h; exact .raises .errCmd rfl
  all_goals cases hf

/-- No command writes the returned data, DIGEST0..3, CTRL, SRC or LEN. -/
theorem CommandEffect.frame {s t : State} (h : CommandEffect s t) :
    t.rdata = s.rdata ∧ t.regs.digest = s.regs.digest ∧ t.regs.irqEn = s.regs.irqEn ∧ t.regs.src = s.regs.src ∧
      t.regs.len = s.regs.len := by
  cases h with
  | nothing eq | raises c eq | accepts eq | stops eq => simp [eq]

/-- Settles O42: the surroundings stay for every row; each format's own frame is what its rows can do. -/
theorem accessesFrame : Obligations.AccessesFrame := by
  intro i s t h
  obtain ⟨mem, platform, host, sched⟩ := exec_surroundings h
  refine ⟨fun x => by rw [mem], platform, host, sched, fun hf => ?_, fun hf => ?_, fun hf => (exec_cmd_effect hf h).frame⟩
  · obtain ⟨d, hd⟩ := exec_read hf s
    cases hd.symm.trans h
    exact ⟨rfl, rfl, rfl, rfl⟩
  · obtain ⟨r, hr, digest⟩ := exec_regWrite hf s
    cases hr.symm.trans h
    exact ⟨rfl, rfl, digest⟩

/-! ### A write of the message memory (R56, R63, R245) -/

theorem storeMessage_pastTop {a : Nat} {bytes : List Byte} {s : State} (nonempty : bytes ≠ [])
    (past : memSize s.platform < a + bytes.length) : storeMessage a bytes s = .fault .addressOutsideMemory :=
  if_pos ⟨nonempty, past⟩

theorem storeMessage_answers {a : Nat} {bytes : List Byte} {s : State} (fits : a + bytes.length ≤ memSize s.platform) :
    ∃ t, storeMessage a bytes s = .next t :=
  ⟨_, if_neg fun past => Nat.not_lt.mpr fits past.2⟩

/-- The host's write and another agent's are the same operation. -/
theorem step_of_messageWrite {s : State} {a : Nat} {bytes : List Byte} {turns : List Turn} {rest : List HostOp}
    (h : s.sched = .agent a bytes :: turns ∧ s.host = rest ∨
      s.sched = .host :: turns ∧ s.host = .memWrite a bytes :: rest) :
    step s = storeMessage a bytes { s with host := rest, sched := turns } := by
  rcases h with ⟨sched, rfl⟩ | ⟨sched, host⟩
  · exact step_of_sched sched
  · exact (step_of_hostTurn sched).trans (hostTurn_of_memWrite host)

/-- Settles O45: the step is the write of the bytes, whoever makes it; the bytes inside and outside it read as written and
as before, and the mark is `storeMessage_torn`. -/
theorem messageWriteStep : Obligations.MessageWriteStep := by
  intro s a bytes turns rest canonical moves
  rw [step_of_messageWrite moves]
  refine ⟨fun nonempty past => storeMessage_pastTop nonempty past, fun fits => ?_⟩
  obtain ⟨t, h⟩ := storeMessage_answers (s := { s with host := rest, sched := turns }) fits
  have mark := storeMessage_torn h
  obtain ⟨-, rfl⟩ := storeMessage_next h
  exact ⟨_, h, fun k hk => Memory.read_writeBytes_same canonical a hk, fun x => Memory.read_writeBytes_other,
    rfl, rfl, rfl, rfl, rfl, rfl, rfl, mark⟩

end Sys2Proof.Machine
end

section
/-! SUPPORT. The statements of spec/30_encoding.md: packets and accesses decode back to what they carry, the refused
accesses, the STATUS word after a write, when BUSY rises and falls, POLL, and the expansions of SETSRC and SETLEN. -/

namespace Sys2Proof.Machine

/-! ### Packets (log 11) -/

/-- The packet of a selector, a kind and the 32 data bits. -/
def packet (x k : Byte) (d : Word) : List Byte :=
  [x, k, byteOfData d 0, byteOfData d 1, byteOfData d 2, byteOfData d 3]

theorem encode_eq_packet (i : Instr) : encode i = packet i.selectorByte i.row.fmt.kind i.data := rfl

theorem decode_packet_write (x : Byte) (d : Word) : decode (packet x kindWrite d) = decodeAccessByte .write x d := by
  simp only [packet, decode, dataOfBytes_byteOfData, if_true]

theorem decode_packet_read (x : Byte) : decode (packet x kindRead 0) = decodeAccessByte .read x 0 := rfl

theorem decode_packet_seq {x : BitVec 6} (hx : x.toNat < 4) :
    decode (packet (x.zeroExtend 8) kindSeq 0) = .ok (decodeSeq (x.setWidth 2)) := by
  have inRange : ¬4 ≤ (x.zeroExtend 8).toNat := by
    rw [BitVec.toNat_setWidth_of_le (by decide)]; exact Nat.not_le.mpr hx
  have code : (x.zeroExtend 8).setWidth 2 = x.setWidth 2 := BitVec.setWidth_setWidth_of_le x (by decide)
  exact (if_neg inRange).trans (congrArg (fun c => Except.ok (decodeSeq c)) code)

theorem decode_packet_round (x : BitVec 6) : decode (packet (x.zeroExtend 8) kindRound 0) = .ok (decodeRound x) := by
  have inRange : ¬64 ≤ (x.zeroExtend 8).toNat := by
    rw [BitVec.toNat_setWidth_of_le (by decide)]; exact Nat.not_le.mpr x.isLt
  have index : (x.zeroExtend 8).setWidth 6 = x :=
    (BitVec.setWidth_setWidth_of_le x (by decide)).trans (BitVec.setWidth_eq x)
  exact (if_neg inRange).trans (congrArg (fun k => Except.ok (decodeRound k)) index)

/-- A packet's access is the access at BASE 0. -/
theorem decodeAccessByte_of_encodeAccess {i : Instr} {dir : Dir} {d : Word} (hw : i.wf = true)
    (ha : encodeAccess 0 i = some ⟨dir, 32, 0 + i.selectorByte.toNat, d⟩) :
    decodeAccessByte dir i.selectorByte d = .ok i := by
  have dec := decodeAccess_of_encodeAccess hw ha
  rw [Nat.zero_add] at dec
  rw [decodeAccessByte, dec]

/-- Only writes carry data (R70). -/
theorem data_eq_zero {i : Instr} (hf : i.row.fmt ≠ .regWrite ∧ i.row.fmt ≠ .cmd) : i.data = 0 := by
  obtain ⟨notWrite, notCmd⟩ := hf
  cases i <;> first | rfl | exact absurd rfl notWrite | exact absurd rfl notCmd

/-- The selector of an engine step has 2 bits (R80). -/
theorem selector_lt_of_seq {i : Instr} (hf : i.row.fmt = .seq) : i.selector.toNat < 4 := by
  cases i <;> cases hf <;> decide

/-- Settles O2, by the format: a packet of an access is the access at BASE 0, and the packets of the engine's steps give
back `st` and the round index. -/
theorem decodeOfEncode : Obligations.DecodeOfEncode := by
  intro i hw
  rw [encode_eq_packet]
  cases hf : i.row.fmt
  case regRead =>
    rw [data_eq_zero (by simp [hf]), Format.kind, decode_packet_read]
    exact decodeAccessByte_of_encodeAccess hw (by rw [encodeAccess, hf])
  case regWrite | cmd =>
    rw [Format.kind, decode_packet_write]
    exact decodeAccessByte_of_encodeAccess hw (by rw [encodeAccess, hf])
  case seq =>
    have selectorByte : i.selectorByte = i.selector.zeroExtend 8 := by rw [Instr.selectorByte, hf]
    rw [data_eq_zero (by simp [hf]), Format.kind, selectorByte, decode_packet_seq (selector_lt_of_seq hf),
      decodeSeq_of_wf hf]
  case round =>
    have selectorByte : i.selectorByte = i.selector.zeroExtend 8 := by rw [Instr.selectorByte, hf]
    rw [data_eq_zero (by simp [hf]), Format.kind, selectorByte, decode_packet_round, decodeRound_of_wf hw hf]

/-! ### Accesses (R70, R81, R84) -/

/-- Settles O3: the round trip is `decodeAccess_of_encodeAccess`; only the engine's steps have no access. -/
theorem accessOfInstrDecodes : Obligations.AccessOfInstrDecodes := by
  intro base i hw
  split
  · next a ha => exact decodeAccess_of_encodeAccess hw ha
  · next ha =>
    cases hf : i.row.fmt
    case seq => exact .inl rfl
    case round => exact .inr rfl
    all_goals simp [encodeAccess, hf] at ha

/-- Each ground of R81 refuses the access. -/
theorem decodeAccess_refused {base : Nat} {a : Access}
    (ground : a.bits ≠ 32 ∨ a.addr < base ∨ (a.addr - base) % 4 ≠ 0 ∨ 64 ≤ a.addr - base) :
    ∃ r, decodeAccess base a = .error r := by
  unfold decodeAccess
  split
  · exact ⟨_, rfl⟩
  split
  · exact ⟨_, rfl⟩
  split
  · exact ⟨_, rfl⟩
  split
  · exact ⟨_, rfl⟩
  · next width below aligned above => exact absurd ground (by simp [width, below, aligned, above])

/-- The row of an aligned offset in the block is encoded by that offset again. -/
theorem decodeOffset_encodeAccess (base : Nat) (dir : Dir) (off : BitVec 6) (d : Word) (h : off.toNat % 4 = 0) :
    ∃ i, decodeOffset dir off d = .ok i ∧ i.wf = true ∧
      encodeAccess base i = some ⟨dir, 32, base + off.toNat, if dir = .write then d else 0⟩ := by
  cases dir
  case read =>
    obtain ⟨i, dec, hw, hf, sel, -⟩ := decodeRead_spec off h
    exact ⟨i, dec, hw, by simp [encodeAccess, hf, toNat_selectorByte (.inl hf), sel]⟩
  case write =>
    obtain ⟨i, dec, hw, data, ⟨hf, sel⟩ | ⟨hf, rfl⟩⟩ := decodeWrite_spec off d h
    · exact ⟨i, dec, hw, by simp [encodeAccess, hf, toNat_selectorByte (.inr hf), sel, data]⟩
    · exact ⟨i, dec, hw, by simp [encodeAccess, hf, Instr.selectorByte, data]⟩

/-- Settles O4: the refused accesses are those of `decodeAccess_refused`; any other is decoded by its 6-bit offset. -/
theorem accessDecoderIsTotal : Obligations.AccessDecoderIsTotal := by
  intro base a
  refine ⟨decodeAccess_refused, fun width above aligned inBlock => ?_⟩
  obtain ⟨dir, bits, addr, d⟩ := a
  obtain ⟨off, rfl⟩ := Nat.exists_eq_add_of_le above
  rw [Nat.add_sub_cancel_left] at aligned inBlock
  have offset : (BitVec.ofNat 6 off).toNat = off := by simp; omega
  obtain ⟨i, dec, hw, enc⟩ := decodeOffset_encodeAccess base dir (BitVec.ofNat 6 off) d (by rw [offset, aligned])
  rw [offset] at enc
  cases width
  exact ⟨i, (decodeAccess_at base off dir d aligned inBlock).trans dec, hw, enc⟩

/-- Settles O1: each access is decoded by its offset, at any BASE. -/
theorem sampleWordsDecode : Obligations.SampleWordsDecode := by
  refine ⟨fun base => ?_, fun base => ?_, fun base => ?_, fun base => ?_, fun base => ?_, fun base => ?_, rfl, rfl⟩
  case refine_5 | refine_6 => exact decodeAccess_cmd base _
  all_goals exact decodeAccess_at base _ _ _ (by decide) (by decide)

theorem hostAccess_of_error {s : State} {a : Access} {r : AccessReject}
    (h : decodeAccess s.platform.base a = .error r) : hostAccess a s = .refused (.accessRefused r) := by
  rw [hostAccess, h]

/-- Settles O7: the host's turn makes the access, and the decoder refuses it. -/
theorem refusedAccessStops : Obligations.RefusedAccessStops := by
  intro s a rest turns sched host ground
  obtain ⟨r, refused⟩ := decodeAccess_refused ground
  refine ⟨r, ?_⟩
  calc step s
    _ = hostTurn { s with sched := turns } := step_of_hostTurn sched
    _ = hostAccess a { s with host := rest, sched := turns } := hostTurn_of_access host
    _ = .refused (.accessRefused r) := hostAccess_of_error refused

/-! ### The STATUS word (R73) -/

/-- The mask 0x3E names the bits 5:1. -/
theorem getLsbD_stickyMask {k : Nat} (hk : k < 32) : (0x3E : Word).getLsbD k = decide (1 ≤ k ∧ k ≤ 5) := by
  revert k; decide

/-- Clearing the named flags clears their bits of the STATUS word, and no other bit. -/
theorem statusWord_clear (r : Regs) (e : Engine) (d : Word) :
    statusWord (r.clear d) e = statusWord r e &&& ~~~(d &&& 0x3E) := by
  apply BitVec.eq_of_getLsbD_eq
  intro k hk
  rw [BitVec.getLsbD_and, BitVec.getLsbD_not, BitVec.getLsbD_and, getLsbD_stickyMask hk, getLsbD_statusWord,
    getLsbD_statusWord]
  have position : k = 0 ∨ k = 1 ∨ k = 2 ∨ k = 3 ∨ k = 4 ∨ k = 5 ∨ 6 ≤ k := by omega
  rcases position with rfl | rfl | rfl | rfl | rfl | rfl | reserved
  case inr.inr.inr.inr.inr.inr =>
    have zero : k ≠ 0 ∧ k ≠ 1 ∧ k ≠ 2 ∧ k ≠ 3 ∧ k ≠ 4 ∧ k ≠ 5 := by omega
    simp [zero]
  all_goals simp

/-- Settles O13: both reads return the STATUS word, and the write between them clears the named flags. -/
theorem statusWriteOnTheWord : Obligations.StatusWriteOnTheWord := by
  intro s t u v d read write readAgain
  cases read
  cases write
  cases readAgain
  exact statusWord_clear s.regs s.eng d

/-! ### BUSY (R73) -/

/-- An engine step keeps BUSY, or it is the completion step. -/
theorem EngineEffect.idle_iff {s t : State} (h : EngineEffect s t) :
    (t.eng.st = .idle ↔ s.eng.st = .idle) ∨
      (s.eng.st = .feed ∧ s.eng.j.toNat + 1 = s.eng.nblk.toNat) := by
  cases h with
  | idle st eq => rw [eq]; exact .inl Iff.rfl
  | load st eq => rw [eq]; simp [st]
  | round st eq => rw [eq]; exact .inl (iff_of_false (Engine.advance_not_idle _ st) (by simp [st]))
  | next st more eq => rw [eq]; simp [st]
  | complete st last eq => exact .inr ⟨st, last⟩

/-- Settles O24: of all that a step can do, an accepted START alone leaves IDLE, and completion, ABORT and reset alone
enter it. -/
theorem busyRisesByStartFallsByEnd : Obligations.BusyRisesByStartFallsByEnd := by
  intro s t h
  have kept (same : t.eng.st = .idle ↔ s.eng.st = .idle) {P Q : Prop} :
      (s.eng.st = .idle → t.eng.st ≠ .idle → P) ∧ (s.eng.st ≠ .idle → t.eng.st = .idle → Q) :=
    ⟨fun idle busy => absurd (same.mpr idle) busy, fun busy idle => absurd (same.mp idle) busy⟩
  cases step_effect h with
  | engine turn run =>
    rcases (exec_engine_effect (s := { s with sched := s.sched.tail }) rfl run).idle_iff with same | ⟨st, last⟩
    · exact kept same
    · exact ⟨fun idle => by simp [idle] at st, fun _ _ => .inl ⟨turn, st, last⟩⟩
  | reset turn eq =>
    exact ⟨fun _ busy => absurd (by rw [eq]; rfl) busy, fun _ _ => .inr (.inr turn)⟩
  | access a rest i turn prog dec run =>
    obtain ⟨notSeq, notRound⟩ := decodeAccess_fmt dec
    cases exec_access_effect notSeq notRound run with
    | keeps eng => exact kept (by rw [eng])
    | accepts d instr idle range eq =>
      exact ⟨fun _ _ => ⟨a, rest, d, turn, prog, by rw [dec, instr], range⟩, fun busy => absurd idle busy⟩
    | stops d instr busy eq =>
      exact ⟨fun idle => absurd idle busy, fun _ _ => .inr (.inl ⟨a, rest, d, turn, prog, by rw [dec, instr]⟩)⟩
  | write a bytes rest run => exact kept (by rw [storeMessage_eng run])
  | quiet d rest eq => exact kept (by rw [eq])

/-! ### POLL (R83) -/

theorem hostTurn_of_poll {s : State} {addr : Nat} {mask value : Word} {rest : List HostOp}
    (h : s.host = .poll addr mask value :: rest) :
    hostTurn s = mapNext (pollAgain mask value rest) (hostAccess (pollAccess addr) s) := by
  rw [hostTurn, h]

/-- What POLL leaves of the host's program. -/
theorem pollAgain_eq (mask value : Word) (rest : List HostOp) (t : State) :
    pollAgain mask value rest t = { t with host := if t.rdata &&& mask = value then rest else t.host } := by
  unfold pollAgain; split <;> rfl

/-- Settles O47: the iteration is the read, which leaves the host's program, and then `pollAgain`. -/
theorem pollReadsUntilItMatches : Obligations.PollReadsUntilItMatches := by
  intro s addr mask value rest turns i t sched host dec run
  have program : t.host = s.host := (exec_surroundings run).host
  calc step s
    _ = hostTurn { s with sched := turns } := step_of_hostTurn sched
    _ = mapNext (pollAgain mask value rest) (hostAccess (pollAccess addr) { s with sched := turns }) :=
      hostTurn_of_poll host
    _ = mapNext (pollAgain mask value rest) (exec i { s with sched := turns }) :=
      congrArg _ (hostAccess_of_ok dec)
    _ = .next (pollAgain mask value rest t) := congrArg _ run
    _ = _ := by rw [pollAgain_eq, program]

/-! ### SETSRC and SETLEN (R83, R178, R179) -/

/-- With nothing scheduled and an idle engine, the host makes its next access (log 5). -/
theorem step_of_unscheduled_access {s : State} {a : Access} {rest : List HostOp} {i : Instr} (sched : s.sched = [])
    (idle : s.eng.st = .idle) (host : s.host = .access a :: rest) (dec : decodeAccess s.platform.base a = .ok i) :
    step s = exec i { s with host := rest } := by
  have turn : s.nextTurn = .host := by
    rw [State.nextTurn, sched]; simp [(Engine.busy_eq_false_iff _).mpr idle]
  have same : { s with sched := s.sched.tail } = s := by rw [sched, List.tail_nil, ← sched]
  rw [step, turn, same]
  exact (hostTurn_of_access host).trans (hostAccess_of_ok dec)

theorem lowHalf_joinHalves (hi lo : Word) : lowHalf (joinHalves hi lo) = lo := by
  apply BitVec.eq_of_toNat_eq
  have := lo.isLt
  simp only [toNat_lowHalf, toNat_joinHalves]
  omega

/-- Storing SRC in two halves, each reduced modulo 2^ADDR_W, stores the whole value reduced: either the first store
keeps the low half whole, or 2^ADDR_W divides 2^32 and only the low half matters. -/
theorem truncAddr_joinHalves_truncAddr (addrW : Nat) (old x : DWord) :
    truncAddr addrW (joinHalves (highHalf x) (lowHalf (truncAddr addrW (joinHalves (highHalf old) (lowHalf x))))) =
      truncAddr addrW x := by
  apply BitVec.eq_of_toNat_eq
  simp only [toNat_truncAddr, toNat_joinHalves, toNat_highHalf, toNat_lowHalf]
  rcases Nat.le_total 32 addrW with wide | narrow
  · rw [Nat.mod_mod_of_dvd _ (Nat.pow_dvd_pow 2 wide), Nat.mul_add_mod_self_right, Nat.mod_mod, Nat.div_add_mod']
  · have div : 2 ^ addrW ∣ 2 ^ 32 := Nat.pow_dvd_pow 2 narrow
    have low (hi lo : Nat) : (hi * 2 ^ 32 + lo) % 2 ^ addrW = lo % 2 ^ addrW := by
      rw [Nat.add_mod, Nat.mod_eq_zero_of_dvd (div.mul_left hi), Nat.zero_add, Nat.mod_mod]
    rw [low, low, Nat.mod_mod_of_dvd x.toNat div, Nat.mod_eq_of_lt (b := 2 ^ 32), Nat.mod_mod]
    exact (Nat.mod_lt _ (Nat.two_pow_pos addrW)).trans_le (Nat.pow_le_pow_right (by decide) narrow)

/-- Two accesses of an idle engine's host with nothing scheduled, the first of which leaves the engine idle. -/
theorem run_two_accesses {s u v : State} {a b : Access} {rest : List HostOp} {i j : Instr} (sched : s.sched = [])
    (idle : s.eng.st = .idle) (host : s.host = .access a :: .access b :: rest)
    (decA : decodeAccess s.platform.base a = .ok i) (decB : decodeAccess s.platform.base b = .ok j)
    (first : exec i { s with host := .access b :: rest } = .next u) (stillIdle : u.eng.st = .idle)
    (second : exec j { u with host := rest } = .next v) : Host.Core.run core 2 s = .next v := by
  obtain ⟨-, platform, host', sched'⟩ := exec_surroundings first
  have stepA : step s = .next u := (step_of_unscheduled_access sched idle host decA).trans first
  have stepB : step u = .next v :=
    (step_of_unscheduled_access (sched'.trans sched) stillIdle host' (by rw [platform]; exact decB)).trans second
  rw [run_succ 1 stepA, run_succ 0 stepB, run_zero]

/-- Settles O48: the two accesses write the two halves, and the halves make up the whole. -/
theorem setSrcAndSetLenExpand : Obligations.SetSrcAndSetLenExpand := by
  intro s x rest sched idle
  have dec (off : Nat) (d : Word) (h4 : off % 4 = 0) (h64 : off < 64) :=
    decodeAccess_at s.platform.base off .write d h4 h64
  constructor <;> intro host
  · refine run_two_accesses sched idle host (dec 0x10 _ rfl (by decide)) (dec 0x14 _ rfl (by decide)) rfl idle ?_
    have src := truncAddr_joinHalves_truncAddr s.platform.addrW s.regs.src x
    exact congrArg (fun v => Host.Outcome.next { s with regs := { s.regs with src := v }, host := rest }) src
  · refine run_two_accesses sched idle host (dec 0x18 _ rfl (by decide)) (dec 0x1C _ rfl (by decide)) rfl idle ?_
    have len : joinHalves (highHalf x) (lowHalf (joinHalves (highHalf s.regs.len) (lowHalf x))) = x := by
      rw [lowHalf_joinHalves, joinHalves_halves]
    exact congrArg (fun v => Host.Outcome.next { s with regs := { s.regs with len := v }, host := rest }) len

end Sys2Proof.Machine
end

section
/-! SUPPORT. The statements of spec/40_padding_framing.md: the padded buffer byte by byte, and the hardware's padded byte as
a byte of it. -/

namespace Sys2Proof.Machine

/-! ### The padded buffer (R102, R105, R107) -/

/-- Settles O29, region by region: the message and the marker by `pad_invariants`, then the zero fill and the 8 length
bytes, whose truncation modulo 2^64 (R101) no byte below index 8 sees. -/
theorem paddedBufferShape : Obligations.PaddedBufferShape := by
  intro msg
  obtain ⟨-, -, message, marker⟩ := pad_invariants msg
  refine ⟨length_pad msg, message, marker, fun k after before => ?zeros, fun t ht => ?lengthBytes⟩
  case zeros =>
    rw [length_pad] at before
    exact getElem?_pad_zero msg after before
  case lengthBytes =>
    rw [length_pad, getElem?_pad_length msg ht, byteOf64_ofNat _ ht]

/-- Settles O30: the regions of PB(k) are those of the padded buffer, as `getElem?_pad_eq_padByte` says. -/
theorem paddedByteIsByteOfBuffer : Obligations.PaddedByteIsByteOfBuffer :=
  fun _ _ latched inBuffer => getElem?_pad_eq_padByte latched inBuffer

end Sys2Proof.Machine
end

section
/-! SUPPORT. The statements of spec/42_compression.md: the mixing functions bit by bit, the round rows, and the constants
they name. -/

namespace Sys2Proof.Machine

/-! ### The mixing functions (R131 to R134) -/

theorem getLsbD_mixF (b c d : Word) {k : Nat} (hk : k < 32) :
    (mixF b c d).getLsbD k = if b.getLsbD k then c.getLsbD k else d.getLsbD k := by
  rw [mixF, BitVec.getLsbD_or, BitVec.getLsbD_and, BitVec.getLsbD_and, BitVec.getLsbD_not]
  cases b.getLsbD k <;> simp [hk]

/-- G is F with the selecting word last (R132). -/
theorem mixG_eq_mixF (b c d : Word) : mixG b c d = mixF d b c := rfl

theorem getLsbD_mixH (b c d : Word) (k : Nat) :
    (mixH b c d).getLsbD k = ((b.getLsbD k).xor (c.getLsbD k)).xor (d.getLsbD k) := by
  rw [mixH, BitVec.getLsbD_xor, BitVec.getLsbD_xor]

theorem getLsbD_mixI (b c d : Word) {k : Nat} (hk : k < 32) :
    (mixI b c d).getLsbD k = (c.getLsbD k).xor (b.getLsbD k || !d.getLsbD k) := by
  rw [mixI, BitVec.getLsbD_xor, BitVec.getLsbD_or, BitVec.getLsbD_not, decide_eq_true hk, Bool.true_and]

/-- Settles O26: each operator acts on the bits apart, and F's two disjuncts are the two values of the selecting bit. -/
theorem mixingFunctionsBitwise : Obligations.MixingFunctionsBitwise := fun b c d k hk =>
  ⟨getLsbD_mixF b c d hk, mixG_eq_mixF b c d ▸ getLsbD_mixF d b c hk, getLsbD_mixH b c d k, getLsbD_mixI b c d hk⟩

/-! ### The round rows (R141 to R144) -/

theorem decodeRound_eq_roundF : ∀ i : BitVec 6, i.toNat < 16 → decodeRound i = .roundF i := by decide

theorem decodeRound_eq_roundG : ∀ i : BitVec 6, 16 ≤ i.toNat → i.toNat < 32 → decodeRound i = .roundG i := by decide

theorem decodeRound_eq_roundH : ∀ i : BitVec 6, 32 ≤ i.toNat → i.toNat < 48 → decodeRound i = .roundH i := by decide

theorem decodeRound_eq_roundI : ∀ i : BitVec 6, 48 ≤ i.toNat → decodeRound i = .roundI i := by decide

theorem exec_roundF (i : BitVec 6) (s : State) :
    exec (.roundF i) s = .next (s.setWork (roundOfF i s.eng.v s.eng.mblk)) := rfl

theorem exec_roundG (i : BitVec 6) (s : State) :
    exec (.roundG i) s = .next (s.setWork (roundOfG i s.eng.v s.eng.mblk)) := rfl

theorem exec_roundH (i : BitVec 6) (s : State) :
    exec (.roundH i) s = .next (s.setWork (roundOfH i s.eng.v s.eng.mblk)) := rfl

theorem exec_roundI (i : BitVec 6) (s : State) :
    exec (.roundI i) s = .next (s.setWork (roundOfI i s.eng.v s.eng.mblk)) := rfl

/-- In phase 00 the reduction modulo 16 of the word index does nothing (R79, R141). -/
theorem get_indexF (m : Vector Word 16) {i : BitVec 6} (hi : i.toNat < 16) : m.get (indexF i) = m[i.toNat] :=
  congrArg m.get (Fin.ext (Nat.mod_eq_of_lt hi) : indexF i = ⟨i.toNat, hi⟩)

/-- Settles O28: the bounds on i select the row, and the row is `roundUpdate` with its phase's function and word. -/
theorem roundRows : Obligations.RoundRows := by
  intro s i a b c d work
  refine ⟨fun below => ⟨decodeRound_eq_roundF i below, ?rowF⟩,
    fun from16 below => ⟨decodeRound_eq_roundG i from16 below, ?rowG⟩,
    fun from32 below => ⟨decodeRound_eq_roundH i from32 below, ?rowH⟩,
    fun from48 => ⟨decodeRound_eq_roundI i from48, ?rowI⟩⟩
  case rowF => rw [exec_roundF, work, roundOfF, get_indexF _ below]; rfl
  case rowG => rw [exec_roundG, work]; rfl
  case rowH => rw [exec_roundH, work]; rfl
  case rowI => rw [exec_roundI, work]; rfl

/-! ### The constants (R135, R137 to R139) -/

/-- Settles O57, phase by phase: the 16 indices of a phase run over its list of constants and its rotate amounts. -/
theorem constantsAreTheTable : Obligations.ConstantsAreTheTable :=
  ⟨rfl, by decide, by decide, by decide, by decide⟩

end Sys2Proof.Machine
end

section
/-! SUPPORT. The statements of spec/43_digest_emission.md: the digest bytes as bytes of the four words, the digits of the
text, and the byte-reversed numerals. -/

namespace Sys2Proof.Machine

/-! ### The digest bytes (R161) -/

theorem byteOf32_eq_ofNat (w : Word) (t : Nat) : byteOf32 w t = BitVec.ofNat 8 (w.toNat / 256 ^ t) := by
  rw [byteOf32, BitVec.extractLsb', Nat.shiftRight_eq_div_pow, Nat.pow_mul]

theorem wordBytes_eq (w : Word) : wordBytes w = [byteOf32 w 0, byteOf32 w 1, byteOf32 w 2, byteOf32 w 3] := rfl

theorem length_wordBytes (w : Word) : (wordBytes w).length = 4 := rfl

theorem length_digestBytes (q : Quad) : (digestBytes q).length = 16 := rfl

/-- Byte t of the first word of a list of bytes. -/
theorem getElem?_wordBytes_append (w : Word) (rest : List Byte) {t : Nat} (h : t < 4) :
    (wordBytes w ++ rest)[t]? = some (BitVec.ofNat 8 (w.toNat / 256 ^ t)) := by
  rw [List.getElem?_append_left (by rwa [length_wordBytes]), wordBytes, List.getElem?_map, List.getElem?_range h,
    Option.map_some, byteOf32_eq_ofNat]

/-- A word takes up 4 bytes. -/
theorem getElem?_wordBytes_append_add (w : Word) (rest : List Byte) (k : Nat) :
    (wordBytes w ++ rest)[4 + k]? = rest[k]? := by
  rw [List.getElem?_append_right (by rw [length_wordBytes]; omega), length_wordBytes, Nat.add_sub_cancel_left]

theorem digestBytes_eq_append (q : Quad) :
    digestBytes q = wordBytes q.w0 ++ (wordBytes q.w1 ++ (wordBytes q.w2 ++ (wordBytes q.w3 ++ []))) := rfl

/-- Settles O31: past k words of 4 bytes stand the bytes of word k. -/
theorem digestByteOrder : Obligations.DigestByteOrder := by
  intro q
  refine ⟨length_digestBytes q, fun t ht => ?_⟩
  rw [digestBytes_eq_append, Nat.add_assoc 4 4 t, Nat.add_assoc 4 8 t, Nat.add_assoc 4 4 t]
  simp only [getElem?_wordBytes_append_add, getElem?_wordBytes_append _ _ ht, and_self]

/-! ### The digits of a byte (R163) -/

/-- The model's digit is the digit of the string "0123456789abcdef". -/
theorem some_hexDigit : ∀ n : BitVec 4, some (hexDigit n) = "0123456789abcdef".toList[n.toNat]? := by decide

theorem toNat_highNibble (b : Byte) : (b.extractLsb' 4 4).toNat = b.toNat / 16 := by
  have := b.isLt
  rw [BitVec.extractLsb'_toNat, Nat.shiftRight_eq_div_pow]
  omega

theorem toNat_lowNibble (b : Byte) : (b.extractLsb' 0 4).toNat = b.toNat % 16 := BitVec.extractLsb'_toNat 0 4 b

theorem length_hexOfByte (b : Byte) : (hexOfByte b).length = 2 := rfl

theorem length_flatMap_hexOfByte (bytes : List Byte) : (bytes.flatMap hexOfByte).length = 2 * bytes.length := by
  induction bytes with
  | nil => rfl
  | cons b bytes ih => rw [List.flatMap_cons, List.length_append, length_hexOfByte, ih, List.length_cons]; omega

/-- Before byte m of the list stand 2m characters, and then the two digits of that byte. -/
theorem getElem?_flatMap_hexOfByte {bytes : List Byte} {m : Nat} (h : m < bytes.length) :
    (bytes.flatMap hexOfByte)[2 * m]? = some (hexDigit (bytes[m].extractLsb' 4 4)) ∧
      (bytes.flatMap hexOfByte)[2 * m + 1]? = some (hexDigit (bytes[m].extractLsb' 0 4)) := by
  induction bytes generalizing m with
  | nil => exact absurd h (Nat.not_lt_zero m)
  | cons b bytes ih =>
    cases m with
    | zero => exact ⟨rfl, rfl⟩
    | succ m => exact ih (Nat.lt_of_succ_lt_succ h)

/-! ### The byte-reversed numerals (R162) -/

/-- The bits of a byte of a word are bits of the word. -/
theorem extractLsb'_byteOf32 (w : Word) (t : Nat) {k : Nat} (h : k + 4 ≤ 8) :
    (byteOf32 w t).extractLsb' k 4 = w.extractLsb' (8 * t + k) 4 := by
  apply BitVec.eq_of_getLsbD_eq
  intro i hi
  have : k + i < 8 := by omega
  simp [byteOf32, this, Nat.add_assoc]

/-- An 8-digit numeral is the digits of the bytes of the word, most significant byte first. -/
theorem hexNumeral_eq_flatMap (w : Word) : hexNumeral w = (wordBytes w).reverse.flatMap hexOfByte := by
  have digits (t : Nat) : hexOfByte (byteOf32 w t) =
      [hexDigit (w.extractLsb' (8 * t + 4) 4), hexDigit (w.extractLsb' (8 * t + 0) 4)] := by
    rw [hexOfByte, extractLsb'_byteOf32 w t (by decide), extractLsb'_byteOf32 w t (by decide)]
  simp only [wordBytes_eq, List.reverse_cons, List.reverse_nil, List.flatMap_append, List.flatMap_cons, List.flatMap_nil,
    digits]
  rfl

/-- LE32 is the concatenation of its operands, the last most significant (R12). -/
theorem le32_eq_append (b0 b1 b2 b3 : Byte) : le32 b0 b1 b2 b3 = b3 ++ b2 ++ b1 ++ b0 := by
  have reorder (x0 x1 x2 x3 : Word) : x0 ||| x1 ||| x2 ||| x3 = x3 ||| x2 ||| x1 ||| x0 := by ac_rfl
  rw [← BitVec.setWidth_eq (b3 ++ b2 ++ b1 ++ b0), BitVec.setWidth_append_append_append_eq_shiftLeft_setWidth_or]
  exact reorder _ _ _ _

/-- Past the lowest byte of a concatenation stand the bytes of the rest. -/
theorem extractLsb'_append_byte {n : Nat} (hi : BitVec n) (lo : Byte) (t : Nat) :
    (hi ++ lo).extractLsb' (8 * (t + 1)) 8 = hi.extractLsb' (8 * t) 8 :=
  BitVec.extractLsb'_append_eq_of_le (Nat.le_add_left 8 (8 * t))

/-- The bytes of `LE32(b0, b1, b2, b3)`, least significant first, are its operands in their order (R12). -/
theorem wordBytes_le32 (b0 b1 b2 b3 : Byte) : wordBytes (le32 b0 b1 b2 b3) = [b0, b1, b2, b3] := by
  have byte0 : byteOf32 (b3 ++ b2 ++ b1 ++ b0) 0 = b0 := BitVec.extractLsb'_append_eq_right
  have byte1 : byteOf32 (b3 ++ b2 ++ b1 ++ b0) 1 = b1 :=
    (extractLsb'_append_byte _ b0 0).trans BitVec.extractLsb'_append_eq_right
  have byte2 : byteOf32 (b3 ++ b2 ++ b1 ++ b0) 2 = b2 :=
    (extractLsb'_append_byte _ b0 1).trans ((extractLsb'_append_byte _ b1 0).trans BitVec.extractLsb'_append_eq_right)
  have byte3 : byteOf32 (b3 ++ b2 ++ b1 ++ b0) 3 = b3 :=
    (extractLsb'_append_byte _ b0 2).trans ((extractLsb'_append_byte _ b1 1).trans BitVec.extractLsb'_append_eq_left)
  rw [wordBytes_eq, le32_eq_append, byte0, byte1, byte2, byte3]

/-- A numeral reads a word's bytes from the last to the first, and those of the reversed word are so the word's own in
order (R162). -/
theorem hexNumeral_byteReverse (w : Word) : hexNumeral (byteReverse w) = (wordBytes w).flatMap hexOfByte := by
  rw [hexNumeral_eq_flatMap, byteReverse, wordBytes_le32]
  rfl

/-- Settles O32: the digits of byte m follow 2m characters, and word by word the text is the numeral of the reversed
word. -/
theorem textRendering : Obligations.TextRendering := by
  intro q
  refine ⟨?length, fun m hm => ?digits, ?numerals⟩
  case length => rw [hexText, length_flatMap_hexOfByte, length_digestBytes]
  case digits =>
    obtain ⟨high, low⟩ := getElem?_flatMap_hexOfByte hm
    rw [hexText, high, low, some_hexDigit, some_hexDigit, toNat_highNibble, toNat_lowNibble]
    exact ⟨rfl, rfl⟩
  case numerals =>
    simp only [hexNumeral_byteReverse, hexText, digestBytes, List.flatMap_append]

end Sys2Proof.Machine
end

section
/-! SUPPORT. The statements of spec/44_host_commands.md: where each access is decoded, what each read returns, what each
register write stores and what each command does. -/

namespace Sys2Proof.Machine

/-! ### The accesses of the rows (R71, R75, R76) -/

/-- A read at the selector of a reg_read row is that row at any BASE, whatever the bus carries as data. -/
theorem decodeAccess_read_selector {i : Instr} (hw : i.wf = true) (hf : i.row.fmt = .regRead) (base : Nat) (d : Word) :
    decodeAccess base ⟨.read, 32, base + i.selector.toNat, d⟩ = .ok i :=
  (decodeAccess_selector base .read i.selector d (selector_aligned hw (.inl hf))).trans (decodeRead_of_wf hw hf)

/-- A write at the selector of a reg_write row, of the row's data, is that row at any BASE. -/
theorem decodeAccess_write_selector {i : Instr} (hw : i.wf = true) (hf : i.row.fmt = .regWrite) (base : Nat) :
    decodeAccess base ⟨.write, 32, base + i.selector.toNat, i.data⟩ = .ok i :=
  (decodeAccess_selector base .write i.selector i.data (selector_aligned hw (.inr hf))).trans (decodeWrite_of_wf hw hf)

/-- A row whose selector is its own match applies to it (R86). -/
theorem wf_of_selector_eq_mtch {i : Instr} (h : i.selector = i.row.mtch) : i.wf = true := by
  have masked : i.row.mtch &&& i.row.mask = i.row.mtch := by cases i <;> simp [Instr.row]
  rw [Instr.wf, h]
  exact beq_iff_eq.mpr masked

/-- A write at the one offset of a reg_write row. -/
theorem decodeAccess_write_mtch {i : Instr} (hs : i.selector = i.row.mtch) (hf : i.row.fmt = .regWrite) (base : Nat) :
    decodeAccess base ⟨.write, 32, base + i.row.mtch.toNat, i.data⟩ = .ok i :=
  hs ▸ decodeAccess_write_selector (wf_of_selector_eq_mtch hs) hf base

theorem wf_rdRsvd {off : BitVec 6} (h : off &&& 0x33 = 0x30) : (Instr.rdRsvd off).wf = true := beq_iff_eq.mpr h

theorem wf_wrDigest {off : BitVec 6} (h : off &&& 0x33 = 0x20) (d : Word) : (Instr.wrDigest off d).wf = true :=
  beq_iff_eq.mpr h

theorem wf_wrRsvd {off : BitVec 6} (h : off &&& 0x33 = 0x30) (d : Word) : (Instr.wrRsvd off d).wf = true :=
  beq_iff_eq.mpr h

/-- A write to CMD is the command that its low four bits select. -/
theorem decodeAccess_of_decodeCmd {d : Word} {i : Instr} (h : decodeCmd d = i) (base : Nat) :
    decodeAccess base ⟨.write, 32, base + 0x08, d⟩ = .ok i :=
  h ▸ decodeAccess_cmd base d

theorem decodeCmd_nop {d : Word} (op : d.toNat % 16 = 0) : decodeCmd d = .nop d := by
  rw [decodeCmd_eq, if_pos op]

theorem decodeCmd_start {d : Word} (op : d.toNat % 16 = 1) : decodeCmd d = .start d := by
  simp [decodeCmd_eq, op]

theorem decodeCmd_abort {d : Word} (op : d.toNat % 16 = 2) : decodeCmd d = .abort d := by
  simp [decodeCmd_eq, op]

theorem decodeCmd_cmdRsvd3 {d : Word} (op : d.toNat % 16 = 3) : decodeCmd d = .cmdRsvd3 d := by
  simp [decodeCmd_eq, op]

theorem decodeCmd_cmdRsvd47 {d : Word} (from4 : 4 ≤ d.toNat % 16) (to7 : d.toNat % 16 ≤ 7) :
    decodeCmd d = .cmdRsvd47 d := by
  rw [decodeCmd_eq, if_neg (by omega), if_neg (by omega), if_neg (by omega), if_neg (by omega), if_pos (by omega)]

theorem decodeCmd_cmdRsvd8F {d : Word} (from8 : 8 ≤ d.toNat % 16) : decodeCmd d = .cmdRsvd8F d := by
  rw [decodeCmd_eq, if_neg (by omega), if_neg (by omega), if_neg (by omega), if_neg (by omega), if_neg (by omega)]

/-! ### The halves of SRC and LEN (R178, R179, R186, R187) -/

theorem joinHalves_eq_ofNat (hi lo : Word) : joinHalves hi lo = BitVec.ofNat 64 (hi.toNat * 2 ^ 32 + lo.toNat) := by
  rw [← toNat_joinHalves, BitVec.ofNat_toNat, BitVec.setWidth_eq]

theorem truncAddr_joinHalves (addrW : Nat) (hi lo : Word) :
    truncAddr addrW (joinHalves hi lo) = BitVec.ofNat 64 ((hi.toNat * 2 ^ 32 + lo.toNat) % 2 ^ addrW) := by
  rw [truncAddr, toNat_joinHalves]

theorem exec_wrSrcLo (d : Word) (s : State) :
    exec (.wrSrcLo d) s = .next (s.setSrc (joinHalves (highHalf s.regs.src) d)) := rfl

theorem exec_wrSrcHi (d : Word) (s : State) :
    exec (.wrSrcHi d) s = .next (s.setSrc (joinHalves d (lowHalf s.regs.src))) := rfl

theorem exec_wrLenLo (d : Word) (s : State) :
    exec (.wrLenLo d) s = .next (s.setLen (joinHalves (highHalf s.regs.len) d)) := rfl

theorem exec_wrLenHi (d : Word) (s : State) :
    exec (.wrLenHi d) s = .next (s.setLen (joinHalves d (lowHalf s.regs.len))) := rfl

/-- Settles O14: the value stored is the two halves joined, as a number, reduced modulo 2^ADDR_W. -/
theorem srcWriteReplacesOneHalf : Obligations.SrcWriteReplacesOneHalf := by
  intro s d
  refine ⟨?low, ?high, fun base => ⟨decodeAccess_write_mtch (i := .wrSrcLo d) rfl rfl base,
    decodeAccess_write_mtch (i := .wrSrcHi d) rfl rfl base⟩⟩
  case low => rw [exec_wrSrcLo, State.setSrc, truncAddr_joinHalves, toNat_highHalf]; rfl
  case high => rw [exec_wrSrcHi, State.setSrc, truncAddr_joinHalves, toNat_lowHalf]; rfl

/-- Settles O15: the value stored is the two halves joined, as a number. -/
theorem lenWriteReplacesOneHalf : Obligations.LenWriteReplacesOneHalf := by
  intro s d
  refine ⟨?low, ?high, fun base => ⟨decodeAccess_write_mtch (i := .wrLenLo d) rfl rfl base,
    decodeAccess_write_mtch (i := .wrLenHi d) rfl rfl base⟩⟩
  case low => rw [exec_wrLenLo, joinHalves_eq_ofNat, toNat_highHalf]; rfl
  case high => rw [exec_wrLenHi, joinHalves_eq_ofNat, toNat_lowHalf]; rfl

/-! ### A running operation (R195) -/

/-- Settles O21: of all that an access can do to the operation, START is accepted only while idle, and ABORT alone stops
it. -/
theorem onlyAbortChangesARunningOperation : Obligations.OnlyAbortChangesARunningOperation := by
  intro i s hs hr
  obtain ⟨t, h⟩ := exec_access_answers hs hr s
  refine ⟨t, h, fun busy notAbort => ?_⟩
  cases exec_access_effect hs hr h with
  | keeps eng torn digest src done => exact ⟨eng, torn⟩
  | accepts d instr idle range eq => exact absurd idle busy
  | stops d instr busy' eq => exact absurd instr (notAbort d)

/-! ### Reads (R170 to R174, R176, R177, R184, R185, R188 to R191, R193) -/

theorem lowHalf_eq_ofNat (v : DWord) : lowHalf v = BitVec.ofNat 32 (v.toNat % 2 ^ 32) := by
  rw [← toNat_lowHalf, BitVec.ofNat_toNat, BitVec.setWidth_eq]

theorem highHalf_eq_ofNat (v : DWord) : highHalf v = BitVec.ofNat 32 (v.toNat / 2 ^ 32) := by
  rw [← toNat_highHalf, BitVec.ofNat_toNat, BitVec.setWidth_eq]

theorem exec_rdSrcLo (s : State) : exec .rdSrcLo s = .next (s.returnData (lowHalf s.regs.src)) := rfl

theorem exec_rdSrcHi (s : State) : exec .rdSrcHi s = .next (s.returnData (highHalf s.regs.src)) := rfl

theorem exec_rdLenLo (s : State) : exec .rdLenLo s = .next (s.returnData (lowHalf s.regs.len)) := rfl

theorem exec_rdLenHi (s : State) : exec .rdLenHi s = .next (s.returnData (highHalf s.regs.len)) := rfl

/-- Settles O9: a read returns its register's data; the halves of SRC and LEN are a remainder and a quotient. -/
theorem readsReturnTheirRegister : Obligations.ReadsReturnTheirRegister := by
  intro s
  have dec {i : Instr} := decodeAccess_read_selector (i := i)
  refine ⟨rfl, rfl, rfl, ?srcLo, ?srcHi, ?lenLo, ?lenHi, rfl, rfl, rfl, rfl, fun _ => rfl, fun base d =>
    ⟨dec (i := .rdId) rfl rfl base d, dec (i := .rdCtrl) rfl rfl base d, dec (i := .rdCmd) rfl rfl base d,
      dec (i := .rdSrcLo) rfl rfl base d, dec (i := .rdSrcHi) rfl rfl base d, dec (i := .rdLenLo) rfl rfl base d,
      dec (i := .rdLenHi) rfl rfl base d, dec (i := .rdDigest0) rfl rfl base d, dec (i := .rdDigest1) rfl rfl base d,
      dec (i := .rdDigest2) rfl rfl base d, dec (i := .rdDigest3) rfl rfl base d,
      fun off h => dec (i := .rdRsvd off) (wf_rdRsvd h) rfl base d⟩⟩
  case srcLo => rw [exec_rdSrcLo, lowHalf_eq_ofNat]; rfl
  case srcHi => rw [exec_rdSrcHi, highHalf_eq_ofNat]; rfl
  case lenLo => rw [exec_rdLenLo, lowHalf_eq_ofNat]; rfl
  case lenHi => rw [exec_rdLenHi, highHalf_eq_ofNat]; rfl

/-- The bits 31:6 of STATUS read 0 (R24). -/
theorem getLsbD_statusWord_reserved (r : Regs) (e : Engine) {k : Nat} (hk : 6 ≤ k) :
    (statusWord r e).getLsbD k = false := by
  have other : k ≠ 0 ∧ k ≠ 1 ∧ k ≠ 2 ∧ k ≠ 3 ∧ k ≠ 4 ∧ k ≠ 5 := by omega
  simp [getLsbD_statusWord, other]

/-- Settles O10: the word returned is `statusWord`, of which each bit below 6 is one flag. -/
theorem statusReadBits : Obligations.StatusReadBits := by
  intro s
  have bit := getLsbD_statusWord s.regs s.eng
  exact ⟨statusWord s.regs s.eng, rfl, (bit 0).trans (by simp [Engine.busy]), (bit 1).trans (by simp),
    (bit 2).trans (by simp), (bit 3).trans (by simp), (bit 4).trans (by simp), (bit 5).trans (by simp),
    fun _ hk => getLsbD_statusWord_reserved s.regs s.eng hk,
    decodeAccess_read_selector (i := .rdStatus) rfl rfl⟩

/-! ### The writes of CTRL and STATUS (R172, R175, R226) -/

/-- The interrupt line: enabled, and some sticky flag is set (R226). -/
theorem State.irq_iff (s : State) : s.irq = true ↔ s.regs.irqEn = true ∧
    (s.regs.done = true ∨ s.regs.errCmd = true ∨ s.regs.errBusy = true ∨ s.regs.errRange = true ∨
      s.regs.aborted = true) := by
  simp [State.irq, Regs.irq, or_assoc]

/-- Settles O11: the write replaces IRQ_EN, and `State.irq_iff` gives the line of the state it leaves. -/
theorem ctrlWriteSetsIrqEnable : Obligations.CtrlWriteSetsIrqEnable := fun _ d =>
  ⟨_, rfl, rfl, State.irq_iff _, decodeAccess_write_mtch (i := .wrCtrl d) rfl rfl⟩

/-- Write-one-to-clear of one flag (R73). -/
theorem and_not_eq_ite (flag bit : Bool) : (flag && !bit) = if bit then false else flag := by
  cases bit <;> simp

theorem exec_wrStatus (d : Word) (s : State) : exec (.wrStatus d) s = .next (s.withRegs (s.regs.clear d)) := rfl

/-- Settles O12: the write is `Regs.clear`, flag by flag a write-one-to-clear. -/
theorem statusWriteClearsNamedFlags : Obligations.StatusWriteClearsNamedFlags := by
  intro s d
  refine ⟨?_, decodeAccess_write_mtch (i := .wrStatus d) rfl rfl⟩
  rw [exec_wrStatus, Regs.clear]
  simp only [and_not_eq_ite]
  rfl

/-! ### The ignored writes (R180, R192, R194) -/

/-- Settles O16: each of these rows leaves the state it was given, and its access is decoded to it. -/
theorem ignoredWritesChangeNothing : Obligations.IgnoredWritesChangeNothing := fun _ d =>
  ⟨rfl, fun _ => rfl, fun _ => rfl, rfl, fun base =>
    ⟨decodeAccess_write_mtch (i := .wrId d) rfl rfl base,
      fun off h => decodeAccess_write_selector (i := .wrDigest off d) (wf_wrDigest h d) rfl base,
      fun off h => decodeAccess_write_selector (i := .wrRsvd off d) (wf_wrRsvd h d) rfl base,
      fun op => decodeAccess_of_decodeCmd (decodeCmd_nop op) base⟩⟩

/-! ### Commands (R181 to R183) -/

/-- START on a busy engine is refused, whatever the range (R224). -/
theorem execStart_busy {s : State} (d : Word) (busy : s.eng.st ≠ .idle) :
    exec (.start d) s = .next (s.raise .errBusy) := if_pos ((Engine.busy_iff _).mpr busy)

/-- START on an idle engine, with a range that passes the top of memory, is refused. -/
theorem execStart_outOfRange {s : State} (d : Word) (idle : s.eng.st = .idle)
    (range : memSize s.platform < s.regs.src.toNat + s.regs.len.toNat) :
    exec (.start d) s = .next (s.raise .errRange) := by
  have outOfRange : s.startOutOfRange = true := decide_eq_true range
  simp [exec, execStart, (Engine.busy_eq_false_iff _).mpr idle, outOfRange]

/-- The 64 bits of L hold 8n modulo 2^64 (R101). -/
theorem bitLength_eq_mod (n : DWord) : bitLength n = BitVec.ofNat 64 (8 * n.toNat % 2 ^ 64) := by
  apply BitVec.eq_of_toNat_eq
  rw [bitLength, BitVec.toNat_ofNat, BitVec.toNat_ofNat, Nat.mod_mod]

/-- Settles O17: the three paths of START; the accepted one is `acceptStart`, whose block count fits its 59 bits. -/
theorem startCommand : Obligations.StartCommand := by
  intro s d
  refine ⟨execStart_busy d, execStart_outOfRange d, fun idle range => ?accepted,
    fun op base => decodeAccess_of_decodeCmd (decodeCmd_start op) base⟩
  refine ⟨_, false, (Latched.latch s.eng range).count, ?_⟩
  rw [execStart_accepted d idle range, ← bitLength_eq_mod]
  rfl

theorem execAbort_busy {s : State} (d : Word) (busy : s.eng.st ≠ .idle) :
    exec (.abort d) s = .next ((s.withEng { s.eng with st := .idle }).raise .aborted) :=
  if_pos ((Engine.busy_iff _).mpr busy)

theorem execAbort_idle {s : State} (d : Word) (idle : s.eng.st = .idle) : exec (.abort d) s = .next s :=
  if_neg fun busy => (Engine.busy_iff _).mp busy idle

/-- Settles O18: the two branches of ABORT, by BUSY. -/
theorem abortCommand : Obligations.AbortCommand := fun _ d =>
  ⟨execAbort_busy d, execAbort_idle d, fun op base => decodeAccess_of_decodeCmd (decodeCmd_abort op) base⟩

/-- Settles O19: each of the three rows takes the cause ERR_CMD, and the opcode selects the row. -/
theorem reservedCommandsSetErrCmd : Obligations.ReservedCommandsSetErrCmd := fun _ _ =>
  ⟨rfl, rfl, rfl, fun base =>
    ⟨fun op => decodeAccess_of_decodeCmd (decodeCmd_cmdRsvd3 op) base,
      fun from4 to7 => decodeAccess_of_decodeCmd (decodeCmd_cmdRsvd47 from4 to7) base,
      fun from8 => decodeAccess_of_decodeCmd (decodeCmd_cmdRsvd8F from8) base⟩⟩

end Sys2Proof.Machine
end

section
/-! SUPPORT. The statements of spec/45_engine_sequencer.md: the row that the engine's turn runs, what each row does and
leaves alone, and the whole operation from an accepted START to its completion. -/

namespace Sys2Proof.Machine

/-! ### The engine's turn (R80, R200) -/

/-- With nothing scheduled a busy engine moves next (log 5). -/
theorem step_of_unscheduled_engine {s : State} (sched : s.sched = []) (busy : s.eng.st ≠ .idle) :
    step s = exec (decodeEngine s.eng) s := by
  have turn : s.nextTurn = .engine := by rw [State.nextTurn, sched]; exact if_pos ((Engine.busy_iff _).mpr busy)
  have same : { s with sched := s.sched.tail } = s := by rw [sched, List.tail_nil, ← sched]
  rw [step, turn, same]; rfl

/-- Settles O6: the engine's turn decodes `st`, and each of its four values selects one row. -/
theorem stepRunsEngineRow : Obligations.StepRunsEngineRow := by
  intro s
  refine ⟨fun turns sched => ?_, step_of_unscheduled_engine⟩
  rw [step_of_engineTurn sched, decodeEngine_eq]
  exact ⟨fun st => by rw [st], fun st => by rw [st], fun st => by rw [st], fun st => by rw [st]⟩

theorem exec_idle (s : State) : exec .idle s = .next s := rfl

/-- Settles O33: the row of an idle engine is IDLE, which answers its own state. -/
theorem idleTakesNoStep : Obligations.IdleTakesNoStep := fun s st =>
  ⟨exec_idle s, fun turns sched => ((stepRunsEngineRow s).1 turns sched).1 st⟩

/-! ### LOAD (R201) -/

theorem messageTouchesDevice_eq_false_iff (s : State) : s.messageTouchesDevice = false ↔
    ∀ d ∈ s.platform.devices, rangesMeet d.1 d.2 s.eng.srcL.toNat s.eng.nL.toNat = false := by
  simp [State.messageTouchesDevice]

/-- Every block of a message that lies in memory lies in memory (R52). -/
theorem blockInMemory_of_range {s : State} (range : s.eng.srcL.toNat + s.eng.nL.toNat ≤ memSize s.platform) :
    s.blockInMemory = true :=
  decide_eq_true (by omega)

/-- LOAD answers wherever the message is ordinary memory and lies in memory. -/
theorem exec_load_ordinary {s : State} (ordinary : s.messageTouchesDevice = false)
    (range : s.eng.srcL.toNat + s.eng.nL.toNat ≤ memSize s.platform) :
    exec .load s = .next (s.withEng (s.eng.enterBlock (loadWords s.eng s.mem))) := by
  simp [exec, execLoad, ordinary, blockInMemory_of_range range]

/-- Settles O34: LOAD enters the block with `loadWords`, of which word k is bytes 4k to 4k + 3 of block j. -/
theorem loadStep : Obligations.LoadStep := fun s devices range =>
  ⟨rfl, loadWords s.eng s.mem, exec_load_ordinary ((messageTouchesDevice_eq_false_iff s).mpr devices) range,
    fun _ hk => getElem_blockWords _ hk⟩

/-! ### ROUND (R202) -/

theorem exec_round (s : State) :
    exec .round s = .next (s.withEng { s.eng with v := roundAt s.eng.i s.eng.v s.eng.mblk }.advance) := execRound_eq s

/-- Settles O37: the two branches of the advance after round i. -/
theorem roundStep : Obligations.RoundStep := by
  intro s
  rw [exec_round]
  constructor <;> intro last
  · have succ : BitVec.ofNat 6 (s.eng.i.toNat + 1) = s.eng.i + 1 := by bv_omega
    rw [succ, Engine.advance_of_not_last (e := { s.eng with v := roundAt s.eng.i s.eng.v s.eng.mblk }) last]; rfl
  · rw [Engine.advance_of_last (e := { s.eng with v := roundAt s.eng.i s.eng.v s.eng.mblk }) last]; rfl

/-- Settles O38: the row that the phase selects is `execPhase`, which is round i on a, b, c, d (`execPhase_eq`). -/
theorem roundStepRunsItsPhaseRow : Obligations.RoundStepRunsItsPhaseRow := by
  refine ⟨rfl, fun s => ⟨s.setWork (roundAt s.eng.i s.eng.v s.eng.mblk), ?rowF, ?rowG, ?rowH, ?rowI, ?advance⟩⟩
  case rowF | rowG | rowH | rowI => intro ph; rw [← execPhase_eq, execPhase, phase, ph]; rfl
  case advance => rw [exec_round, Engine.advance]; split <;> rfl

/-! ### FEED (R203 to R205) -/

theorem exec_feed_last {s : State} (last : s.eng.j.toNat + 1 = s.eng.nblk.toNat) :
    exec .feed s = .next (s.complete (s.eng.h.add s.eng.v)) := if_pos ((Engine.lastBlock_iff _).mpr last)

theorem exec_feed_more {s : State} (more : s.eng.j.toNat + 1 ≠ s.eng.nblk.toNat) :
    exec .feed s = .next (s.nextBlock (s.eng.h.add s.eng.v)) := if_neg (mt (Engine.lastBlock_iff _).mp more)

/-- The completion of a message that was not written meanwhile leaves the new h in DIGEST0..3 and draws nothing. -/
theorem complete_of_unmarked {s : State} (unmarked : s.torn = false) (h : Quad) :
    s.complete h = { s with
      regs := { s.regs with done := true, digest := h }, eng := { s.eng with h := h, st := .idle } } := by
  simp [State.complete, State.result, Regs.raise, unmarked]

/-- Settles O39: the two branches of FEED, by whether block j is the last. -/
theorem feedStep : Obligations.FeedStep := by
  rintro s h rfl
  refine ⟨rfl, fun last unmarked => ?_, exec_feed_more⟩
  rw [exec_feed_last last, complete_of_unmarked unmarked]; rfl

/-! ### What the engine's rows leave alone (R211) -/

/-- The registers that START alone writes: the latched message and its block count. -/
structure Engine.SameParams (e e' : Engine) : Prop where
  srcL : e'.srcL = e.srcL
  nL   : e'.nL = e.nL
  lL   : e'.lL = e.lL
  nblk : e'.nblk = e.nblk

/-- Everything a row of the engine can do: work on the internal registers that START does not own, or complete. -/
inductive EngineRowEffect (s t : State) : Prop where
  | works (e : Engine) (eq : t = s.withEng e) (params : s.eng.SameParams e)
  | completes (h : Quad) (eq : t = s.complete h)

theorem exec_engineRow_effect {i : Instr} (hf : i.row.fmt = .seq ∨ i.row.fmt = .round) {s t : State}
    (h : exec i s = .next t) : EngineRowEffect s t := by
  cases i
  case idle => cases h; exact .works s.eng rfl ⟨rfl, rfl, rfl, rfl⟩
  case load => obtain ⟨-, -, rfl⟩ := execLoad_next h; exact .works _ rfl ⟨rfl, rfl, rfl, rfl⟩
  case round =>
    rw [exec_round] at h; cases h
    exact .works _ rfl ⟨by simp, by simp, by simp, by simp⟩
  case feed =>
    by_cases last : s.eng.j.toNat + 1 = s.eng.nblk.toNat
    · rw [exec_feed_last last] at h; cases h; exact .completes _ rfl
    · rw [exec_feed_more last] at h; cases h; exact .works _ rfl ⟨rfl, rfl, rfl, rfl⟩
  case roundF | roundG | roundH | roundI => cases h; exact .works _ rfl ⟨rfl, rfl, rfl, rfl⟩
  all_goals rcases hf with hf | hf <;> cases hf

/-- Settles O41: neither of the two things an engine row can do writes any of these. -/
theorem engineRowsFrame : Obligations.EngineRowsFrame := by
  intro i s t hf h
  cases exec_engineRow_effect hf h with
  | works e eq params =>
    subst eq
    exact ⟨rfl, rfl, rfl, rfl, rfl, rfl, rfl, fun _ => rfl, rfl, rfl, rfl, rfl, rfl,
      params.srcL, params.nL, params.lL, params.nblk⟩
  | completes q eq =>
    subst eq
    exact ⟨rfl, rfl, rfl, rfl, rfl, rfl, rfl, fun _ => rfl, rfl, rfl, rfl, rfl, rfl, rfl, rfl, rfl, rfl⟩

/-! ### The completion (R148, R207) -/

/-- FEED of the last block: the feedback is the digest state of the message. -/
theorem Engine.Tracks.feedback_last {s : State} (ht : s.eng.Tracks s.message) (st : s.eng.st = .feed)
    (hl : Latched s.platform s.eng) (last : s.eng.j.toNat + 1 = s.eng.nblk.toNat) :
    s.eng.h.add s.eng.v = md5State s.message := by
  rw [ht.feedback st, last, hl.count, ← length_message, md5State]

/-- Settles O53: the completion writes the feedback of the last block. -/
theorem completionLeavesMd5State : Obligations.CompletionLeavesMd5State := by
  intro s hi ho unmarked st last
  have latched : Latched s.platform s.eng := hi.latched ((Engine.busy_iff _).mpr (by simp [st]))
  refine ⟨_, exec_feed_last last, ?_⟩
  rw [complete_of_unmarked unmarked, (onTrack_iff s).mp ho unmarked |>.feedback_last st latched last]
  exact ⟨rfl, rfl, rfl⟩

/-! ### The operation, engine steps alone (R206 to R209, R254) -/

/-- The steps left in the block at hand: LOAD, 64 rounds, FEED. -/
def Engine.leftInBlock (e : Engine) : Nat :=
  match e.st with
  | .idle  => 0
  | .load  => 66
  | .round => 65 - e.i.toNat
  | .feed  => 1

/-- The steps left until the completion: 66 for each block after j, and those left in block j. -/
def Engine.stepsLeft (e : Engine) : Nat := 66 * (e.nblk.toNat - (e.j.toNat + 1)) + e.leftInBlock

theorem Engine.leftInBlock_pos {e : Engine} (busy : e.st ≠ .idle) : 0 < e.leftInBlock := by
  have := e.i.isLt
  rcases st : e.st <;> simp only [Engine.leftInBlock, st]
  · exact absurd st busy
  all_goals omega

theorem Engine.stepsLeft_enterBlock {e : Engine} (st : e.st = .load) (w : Vector Word 16) :
    e.stepsLeft = (e.enterBlock w).stepsLeft + 1 := by
  simp [Engine.stepsLeft, Engine.leftInBlock, st]

theorem Engine.stepsLeft_advance {e : Engine} (st : e.st = .round) : e.stepsLeft = e.advance.stepsLeft + 1 := by
  by_cases last : e.i = 63
  · simp [Engine.stepsLeft, Engine.leftInBlock, st, last]
  · have succ : (e.i + 1).toNat = e.i.toNat + 1 ∧ e.i.toNat < 63 := by bv_omega
    simp only [Engine.stepsLeft, Engine.leftInBlock, Engine.advance_of_not_last last, st]
    omega

/-- A busy engine on a message in ordinary memory, unmarked and on track, with the registers r and nothing scheduled. -/
structure RunsAlone (msg : List Byte) (r : Regs) (s : State) : Prop where
  busy     : s.eng.st ≠ .idle
  sched    : s.sched = []
  ordinary : s.messageTouchesDevice = false
  latched  : Latched s.platform s.eng
  unmarked : s.torn = false
  message  : s.message = msg
  tracks   : s.eng.Tracks msg
  regs     : s.regs = r

/-- The end of such an operation: idle, with DONE set and the digest state of the message in DIGEST0..3. -/
def CompletedWith (msg : List Byte) (r : Regs) (t : State) : Prop :=
  t.eng.st = .idle ∧ t.regs = { r with done := true, digest := md5State msg }

/-- An accepted START on a message in ordinary memory sets the engine on its way. -/
theorem RunsAlone.acceptStart {s : State} (sched : s.sched = [])
    (range : s.regs.src.toNat + s.regs.len.toNat ≤ memSize s.platform)
    (devices : ∀ x ∈ s.platform.devices, rangesMeet x.1 x.2 s.regs.src.toNat s.regs.len.toNat = false) :
    RunsAlone s.acceptStart.message s.regs.clearForStart s.acceptStart where
  busy     := by simp
  sched    := sched
  ordinary := (messageTouchesDevice_eq_false_iff _).mpr devices
  latched  := Latched.latch s.eng range
  unmarked := rfl
  message  := rfl
  tracks   := Engine.tracks_of_load rfl rfl
  regs     := rfl

theorem stepsLeft_acceptStart (s : State) : s.acceptStart.eng.stepsLeft = 66 * blockCount s.regs.len.toNat := by
  have count : (BitVec.ofNat 59 (blockCount s.regs.len.toNat)).toNat = blockCount s.regs.len.toNat :=
    Nat.mod_eq_of_lt (blockCount_lt s.regs.len)
  have first : (0 : BitVec 59).toNat = 0 := rfl
  have pos : 0 < blockCount s.regs.len.toNat := Nat.succ_pos _
  simp only [State.acceptStart_eng, Engine.stepsLeft, Engine.leftInBlock, Engine.latch_st, Engine.latch_nblk,
    Engine.latch_j, count, first]
  omega

section
variable {msg : List Byte} {r : Regs} {s : State}

/-- Work on the internal registers that START does not own keeps the engine on its way. -/
theorem RunsAlone.withEng (hr : RunsAlone msg r s) {e : Engine} (params : s.eng.SameParams e) (busy : e.st ≠ .idle)
    (index : e.j.toNat < s.eng.nblk.toNat) (tracks : e.Tracks msg) : RunsAlone msg r (s.withEng e) where
  busy     := busy
  sched    := hr.sched
  ordinary := by
    have := (messageTouchesDevice_eq_false_iff s).mp hr.ordinary
    rwa [messageTouchesDevice_eq_false_iff, State.withEng_platform, State.withEng_eng, params.srcL, params.nL]
  latched  := hr.latched.of_params params.srcL params.nL params.lL params.nblk index
  unmarked := hr.unmarked
  message  := (message_withEng params.srcL params.nL).trans hr.message
  tracks   := tracks
  regs     := hr.regs

/-- The row of `st` answers. -/
theorem RunsAlone.exec_answers (hr : RunsAlone msg r s) : ∃ t, exec (decodeEngine s.eng) s = .next t := by
  rw [decodeEngine_eq]
  rcases s.eng.st with _ | _ | _ | _
  · exact ⟨_, exec_idle s⟩
  · exact ⟨_, exec_load_ordinary hr.ordinary hr.latched.range⟩
  · exact ⟨_, exec_round s⟩
  · by_cases last : s.eng.j.toNat + 1 = s.eng.nblk.toNat
    · exact ⟨_, exec_feed_last last⟩
    · exact ⟨_, exec_feed_more last⟩

/-- One step on the way: one step less is left, and when none is left the operation has completed. -/
theorem RunsAlone.step (hr : RunsAlone msg r s) : ∃ t, step s = .next t ∧
    (s.eng.stepsLeft = t.eng.stepsLeft + 1 ∧ RunsAlone msg r t ∨ s.eng.stepsLeft = 1 ∧ CompletedWith msg r t) := by
  obtain ⟨t, run⟩ := hr.exec_answers
  refine ⟨t, (step_of_unscheduled_engine hr.sched hr.busy).trans run, ?_⟩
  have index := hr.latched.index
  cases exec_engine_effect rfl run with
  | idle st eq => exact absurd st hr.busy
  | load st eq =>
    subst eq
    refine .inl ⟨Engine.stepsLeft_enterBlock st _, hr.withEng ⟨rfl, rfl, rfl, rfl⟩ (by simp) index ?_⟩
    exact hr.tracks.enterBlock st (by rw [loadWords_eq_blockOf hr.latched, hr.message])
  | round st eq =>
    subst eq
    exact .inl ⟨Engine.stepsLeft_advance (e := { s.eng with v := roundAt s.eng.i s.eng.v s.eng.mblk }) st,
      hr.withEng ⟨by simp, by simp, by simp, by simp⟩ (Engine.advance_not_idle _ st) (by simpa using index)
        (hr.tracks.advance st)⟩
  | next st more eq =>
    subst eq
    have succ := hr.latched.toNat_succ_j
    refine .inl ⟨?left, hr.withEng ⟨rfl, rfl, rfl, rfl⟩ (by simp) (show (s.eng.j + 1).toNat < _ by omega) ?tracks⟩
    case left => simp only [Engine.stepsLeft, Engine.leftInBlock, st, State.nextBlock_eng, succ]; omega
    case tracks => exact Engine.tracks_of_load rfl (by rw [hr.tracks.feedback st, succ])
  | complete st last eq =>
    subst eq
    have tracks : s.eng.Tracks s.message := hr.message ▸ hr.tracks
    refine .inr ⟨by simp [Engine.stepsLeft, Engine.leftInBlock, st, last], rfl, ?_⟩
    rw [complete_of_unmarked hr.unmarked, tracks.feedback_last st hr.latched last, hr.message, hr.regs]

/-- Before the last step the engine is still on its way. -/
theorem RunsAlone.run_before {k : Nat} (hr : RunsAlone msg r s) (before : k < s.eng.stepsLeft) :
    ∃ u, Host.Core.run core k s = .next u ∧ RunsAlone msg r u := by
  induction k generalizing s with
  | zero => exact ⟨s, run_zero s, hr⟩
  | succ k ih =>
    obtain ⟨t, hstep, ⟨left, alone⟩ | ⟨left, -⟩⟩ := hr.step
    · rw [run_succ k hstep]
      exact ih alone (by omega)
    · omega

/-- After exactly the steps left the operation has completed. -/
theorem RunsAlone.run_all {n : Nat} (hr : RunsAlone msg r s) (all : s.eng.stepsLeft = n) :
    ∃ u, Host.Core.run core n s = .next u ∧ CompletedWith msg r u := by
  induction n generalizing s with
  | zero =>
    have := Engine.leftInBlock_pos hr.busy
    rw [Engine.stepsLeft] at all
    omega
  | succ n ih =>
    obtain ⟨t, hstep, ⟨left, alone⟩ | ⟨left, completed⟩⟩ := hr.step
    · rw [run_succ n hstep]
      exact ih alone (by omega)
    · obtain rfl : n = 0 := by omega
      exact ⟨t, run_succ 0 hstep, completed⟩

end

/-- Settles O54: an accepted START sets the engine on its way with 66 nblk steps left. -/
theorem operationCompletesWithMd5 : Obligations.OperationCompletesWithMd5 := by
  intro s d sched idle range devices
  have alone := RunsAlone.acceptStart sched range devices
  have left := stepsLeft_acceptStart s
  refine ⟨s.acceptStart, execStart_accepted d idle range, fun k before => ?_, ?_⟩
  · obtain ⟨u, run, still⟩ := alone.run_before (k := k) (left ▸ before)
    exact ⟨u, run, still.busy, by rw [still.regs]; rfl⟩
  · obtain ⟨u, run, st, regs⟩ := alone.run_all left
    refine ⟨u, run, st, ?_⟩
    rw [regs]
    exact ⟨rfl, rfl, rfl, rfl, rfl, rfl, rfl, rfl⟩

end Sys2Proof.Machine
end

section
/-! SUPPORT. The statements of spec/60_exceptions.md: the cause that an access raises, and the step that raises DONE. -/

namespace Sys2Proof.Machine

/-! ### The sticky flag of a cause (R221, R223, R224) -/

/-- The sticky flag that holds a cause (R221). -/
def Regs.flag (r : Regs) (c : Cause) : Bool :=
  match c with
  | .done     => r.done
  | .errCmd   => r.errCmd
  | .errBusy  => r.errBusy
  | .errRange => r.errRange
  | .aborted  => r.aborted

/-- The flag of c rises from r to r'. -/
def Regs.rises (r r' : Regs) (c : Cause) : Bool := !r.flag c && r'.flag c

theorem Regs.rises_iff (r r' : Regs) (c : Cause) : r.rises r' c = true ↔ r.flag c = false ∧ r'.flag c = true := by
  simp [Regs.rises]

theorem Regs.flag_raise (r : Regs) (c c' : Cause) : (r.raise c).flag c' = (r.flag c' || decide (c = c')) := by
  cases c' <;> simp [Regs.flag]

/-- No write of STATUS sets a flag (R175). -/
theorem Regs.flag_of_clear {r : Regs} {d : Word} {c : Cause} (h : (r.clear d).flag c = true) : r.flag c = true := by
  cases c <;> exact Bool.and_elim_left h

/-- No accepted START sets a flag (R181). -/
theorem Regs.flag_of_clearForStart {r : Regs} {c : Cause} (h : r.clearForStart.flag c = true) : r.flag c = true := by
  cases c with
  | done | aborted => cases h
  | errCmd | errBusy | errRange => exact h

/-- No flag rises where every set flag was set. -/
theorem Regs.rises_eq_false {r r' : Regs} {c : Cause} (h : r'.flag c = true → r.flag c = true) : r.rises r' c = false :=
  Bool.eq_false_iff.mpr fun rise => by
    obtain ⟨down, up⟩ := (Regs.rises_iff r r' c).mp rise
    exact Bool.eq_false_iff.mp down (h up)

/-- Taking a cause raises no other flag. -/
theorem Regs.eq_of_rises_raise {r : Regs} {c c' : Cause} (rise : r.rises (r.raise c) c' = true) : c' = c := by
  obtain ⟨down, up⟩ := (Regs.rises_iff _ _ _).mp rise
  simpa [Regs.flag_raise, down, eq_comm] using up

/-! ### The cause that an access raises (R224) -/

/-- The one command, and the state it finds, by which an access raises a cause; no access raises DONE (R221, R223). -/
def RaisedBy (i : Instr) (s : State) (c : Cause) : Prop :=
  match c with
  | .done     => False
  | .errCmd   => ∃ d, i = .cmdRsvd3 d ∨ i = .cmdRsvd47 d ∨ i = .cmdRsvd8F d
  | .errBusy  => s.eng.st ≠ .idle ∧ ∃ d, i = .start d
  | .errRange => s.eng.st = .idle ∧ memSize s.platform < s.regs.src.toNat + s.regs.len.toNat ∧ ∃ d, i = .start d
  | .aborted  => s.eng.st ≠ .idle ∧ ∃ d, i = .abort d

/-- Everything an access can do to the sticky flags: set none, or take the one cause that its command names. -/
inductive CauseEffect (i : Instr) (s t : State) : Prop where
  | quiet (kept : ∀ c, t.regs.flag c = true → s.regs.flag c = true)
  | raises (c : Cause) (raisedBy : RaisedBy i s c) (regs : t.regs = s.regs.raise c)

theorem exec_start_causes {d : Word} {s t : State} (h : exec (.start d) s = .next t) : CauseEffect (.start d) s t := by
  by_cases idle : s.eng.st = .idle
  · rcases Nat.lt_or_ge (memSize s.platform) (s.regs.src.toNat + s.regs.len.toNat) with past | range
    · cases (execStart_outOfRange d idle past).symm.trans h
      exact .raises .errRange ⟨idle, past, d, rfl⟩ rfl
    · cases (execStart_accepted d idle range).symm.trans h
      exact .quiet fun _ => Regs.flag_of_clearForStart
  · cases (execStart_busy d idle).symm.trans h
    exact .raises .errBusy ⟨idle, d, rfl⟩ rfl

theorem exec_abort_causes {d : Word} {s t : State} (h : exec (.abort d) s = .next t) : CauseEffect (.abort d) s t := by
  by_cases idle : s.eng.st = .idle
  · cases (execAbort_idle d idle).symm.trans h
    exact .quiet fun _ => id
  · cases (execAbort_busy d idle).symm.trans h
    exact .raises .aborted ⟨idle, d, rfl⟩ rfl

theorem exec_access_causes {i : Instr} (hs : i.row.fmt ≠ .seq) (hr : i.row.fmt ≠ .round) {s t : State}
    (h : exec i s = .next t) : CauseEffect i s t := by
  cases i
  case start => exact exec_start_causes h
  case abort => exact exec_abort_causes h
  case cmdRsvd3 d => cases h; exact .raises .errCmd ⟨d, .inl rfl⟩ rfl
  case cmdRsvd47 d => cases h; exact .raises .errCmd ⟨d, .inr (.inl rfl)⟩ rfl
  case cmdRsvd8F d => cases h; exact .raises .errCmd ⟨d, .inr (.inr rfl)⟩ rfl
  case wrStatus => cases h; exact .quiet fun _ => Regs.flag_of_clear
  case idle | load | round | feed => exact absurd rfl hs
  case roundF | roundG | roundH | roundI => exact absurd rfl hr
  all_goals cases h; exact .quiet fun _ => id

/-- Whatever flag rises, the access is the command that raises it. -/
theorem CauseEffect.raisedBy_of_rises {i : Instr} {s t : State} (h : CauseEffect i s t) {c : Cause}
    (down : s.regs.flag c = false) (up : t.regs.flag c = true) : RaisedBy i s c := by
  have rise : s.regs.rises t.regs c = true := (Regs.rises_iff _ _ _).mpr ⟨down, up⟩
  cases h with
  | quiet kept => simp [Regs.rises_eq_false (kept c)] at rise
  | raises c₀ raisedBy regs =>
    rw [regs] at rise
    exact Regs.eq_of_rises_raise rise ▸ raisedBy

/-- Of causes listed once each, at most one rises. -/
theorem CauseEffect.count_rises_le_one {i : Instr} {s t : State} (h : CauseEffect i s t) {causes : List Cause}
    (once : causes.Nodup) : (causes.map (s.regs.rises t.regs)).count true ≤ 1 := by
  rw [List.count, List.countP_map]
  cases h with
  | quiet kept =>
    have still : s.regs.rises t.regs = fun _ => false := funext fun c => Regs.rises_eq_false (kept c)
    simp [still, Function.comp_def]
  | raises c₀ raisedBy regs =>
    calc causes.countP ((· == true) ∘ s.regs.rises t.regs)
      _ ≤ causes.count c₀ := List.countP_mono_left fun c _ rise =>
        beq_iff_eq.mpr (Regs.eq_of_rises_raise (regs ▸ beq_iff_eq.mp rise))
      _ ≤ 1 := List.nodup_iff_count_le_one.mp once c₀

/-- Settles O20: a flag that rises is that of the one cause the command names, so the causes listed hold at most one. -/
theorem oneAccessRaisesAtMostOneCause : Obligations.OneAccessRaisesAtMostOneCause := by
  intro i s t hs hr h
  have effect := exec_access_causes hs hr h
  have raised (c : Cause) := effect.raisedBy_of_rises (c := c)
  refine ⟨fun up => ?done, ?count, raised .errCmd, raised .errBusy, raised .errRange, raised .aborted⟩
  case done => exact Bool.eq_true_of_not_eq_false fun down => raised .done down up
  case count => exact effect.count_rises_le_one (causes := [.errCmd, .errBusy, .errRange, .aborted]) (by decide)

/-! ### DONE (R223) -/

/-- An engine step leaves the host-visible registers, or it is the completion step. -/
theorem EngineEffect.regs_eq_or_completes {s t : State} (h : EngineEffect s t) :
    t.regs = s.regs ∨ (s.eng.st = .feed ∧ s.eng.j.toNat + 1 = s.eng.nblk.toNat ∧ t.eng.st = .idle) := by
  cases h with
  | idle st eq | load st eq | round st eq | next st more eq => exact .inl (by simp [eq])
  | complete st last eq => exact .inr ⟨st, last, by simp [eq]⟩

/-- Settles O23: no access raises DONE, and of the engine's steps only completion writes the flags. -/
theorem doneRisesOnlyAtCompletion : Obligations.DoneRisesOnlyAtCompletion := by
  intro s t h down up
  have changed : t.regs ≠ s.regs := fun same => by simp [same, down] at up
  cases step_effect h with
  | engine turn run =>
    have effect := exec_engine_effect (s := { s with sched := s.sched.tail }) rfl run
    rcases effect.regs_eq_or_completes with same | completion
    · exact absurd same changed
    · exact ⟨turn, completion⟩
  | reset turn eq => rw [eq] at up; cases up
  | access a rest i turn prog dec run =>
    obtain ⟨hs, hr⟩ := decodeAccess_fmt dec
    exact False.elim ((exec_access_causes hs hr run).raisedBy_of_rises (c := .done) down up)
  | write a bytes rest run => exact absurd (storeMessage_regs run) changed
  | quiet d rest eq => exact absurd (by rw [eq]) changed

end Sys2Proof.Machine
end

section
/-! SUPPORT. The statements of spec/70_reset_and_hazards.md: when DIGEST0..3 change, where LOAD stops, the record of a
message byte written while the operation runs and the completion that it makes a draw, and reset. -/

namespace Sys2Proof.Machine

/-! ### DIGEST0..3 (R256) -/

/-- No access writes DIGEST0..3. -/
theorem AccessEffect.digest_eq {i : Instr} {s t : State} (h : AccessEffect i s t) : t.regs.digest = s.regs.digest := by
  cases h with
  | keeps eng torn digest src done => exact digest
  | accepts d instr idle range eq => rw [eq]; rfl
  | stops d instr busy eq => rw [eq]; rfl

/-- Settles O25: of all that a step can do, only reset and the engine's completion write DIGEST0..3. -/
theorem digestChangesOnlyAtCompletionOrReset : Obligations.DigestChangesOnlyAtCompletionOrReset := by
  intro s t h changed
  cases step_effect h with
  | engine turn run =>
    cases exec_engine_effect (s := { s with sched := s.sched.tail }) rfl run with
    | complete st last eq => exact .inr ⟨turn, st, last, by simp [eq]⟩
    | idle st eq | load st eq | round st eq | next st more eq => exact absurd (by simp [eq]) changed
  | reset turn eq => exact .inl turn
  | access a rest i turn prog dec run =>
    obtain ⟨notSeq, notRound⟩ := decodeAccess_fmt dec
    exact absurd (exec_access_effect notSeq notRound run).digest_eq changed
  | write a bytes rest run => exact absurd (by rw [storeMessage_regs run]) changed
  | quiet d rest eq => exact absurd (by rw [eq]) changed

/-! ### Where LOAD stops (R246, R8) -/

/-- A device on a byte of the latched message is in its range. -/
theorem messageTouchesDevice_of_mem {s : State} {d : Nat × Nat} (device : d ∈ s.platform.devices) {x : Nat}
    (above : d.1 ≤ x) (below : x < d.1 + d.2) (msgAbove : s.eng.srcL.toNat ≤ x)
    (msgBelow : x < s.eng.srcL.toNat + s.eng.nL.toNat) : s.messageTouchesDevice = true :=
  List.any_eq_true.mpr ⟨d, device, rangesMeet_iff.mpr ⟨x, above, below, msgAbove, msgBelow⟩⟩

/-- A message byte of block j at or above 2^ADDR_W does not exist. -/
theorem blockInMemory_eq_false {s : State} {k : Nat} (first : 64 * s.eng.j.toNat ≤ k)
    (last : k < 64 * s.eng.j.toNat + 64) (inMessage : k < s.eng.nL.toNat)
    (pastTop : memSize s.platform ≤ s.eng.srcL.toNat + k) : s.blockInMemory = false :=
  decide_eq_false (by omega)

theorem exec_load_device {s : State} (device : s.messageTouchesDevice = true) :
    exec .load s = .fault .sideEffectRead := if_pos device

theorem exec_load_pastTop {s : State} (ordinary : s.messageTouchesDevice = false) (outside : s.blockInMemory = false) :
    exec .load s = .fault .addressOutsideMemory := by
  simp [exec, execLoad, ordinary, outside]

/-- Settles O36: LOAD asks first for a device in the message range, then for the bytes of the block. -/
theorem loadStops : Obligations.LoadStops := fun s =>
  ⟨fun _ device _ above below msgAbove msgBelow =>
      exec_load_device (messageTouchesDevice_of_mem device above below msgAbove msgBelow),
    fun devices _ first last inMessage pastTop =>
      exec_load_pastTop ((messageTouchesDevice_eq_false_iff s).mpr devices)
        (blockInMemory_eq_false first last inMessage pastTop)⟩

/-! ### The record of a message byte written while busy (R245; log 7) -/

/-- The next step writes these bytes of the message memory, as another agent or as the host. -/
def State.WritesNext (s : State) (a : Nat) (bytes : List Byte) : Prop :=
  s.nextTurn = .agent a bytes ∨ s.nextTurn = .host ∧ ∃ rest, s.host = .memWrite a bytes :: rest

/-- The next step is the host's START. -/
def State.StartsNext (s : State) (d : Word) : Prop :=
  ∃ a rest, s.nextTurn = .host ∧ s.host = .access a :: rest ∧ decodeAccess s.platform.base a = .ok (.start d)

theorem step_of_nextTurn {s : State} {turn : Turn} (h : s.nextTurn = turn) :
    step s = takeTurn turn { s with sched := s.sched.tail } := by
  rw [step, h]

theorem State.WritesNext.step_eq {s : State} {a : Nat} {bytes : List Byte} (h : s.WritesNext a bytes) :
    ∃ rest, step s = storeMessage a bytes { s with sched := s.sched.tail, host := rest } := by
  rcases h with turn | ⟨turn, rest, host⟩
  · exact ⟨s.host, step_of_nextTurn turn⟩
  · exact ⟨rest, (step_of_nextTurn turn).trans (hostTurn_of_memWrite host)⟩

theorem State.StartsNext.step_eq {s : State} {d : Word} (h : s.StartsNext d) :
    ∃ rest, step s = exec (.start d) { s with sched := s.sched.tail, host := rest } := by
  obtain ⟨a, rest, turn, host, dec⟩ := h
  refine ⟨rest, ?_⟩
  calc step s
    _ = hostTurn { s with sched := s.sched.tail } := step_of_nextTurn turn
    _ = hostAccess a { s with sched := s.sched.tail, host := rest } := hostTurn_of_access host
    _ = exec (.start d) { s with sched := s.sched.tail, host := rest } := hostAccess_of_ok dec

/-- Everything one step can do to the record: leave it, write the message memory, accept a START, or reset. -/
inductive MarkEffect (s t : State) : Prop where
  | keeps (torn : t.torn = s.torn)
  | writes (a : Nat) (bytes : List Byte) (rest : List HostOp) (moves : s.WritesNext a bytes)
      (run : storeMessage a bytes { s with sched := s.sched.tail, host := rest } = .next t)
  | accepts (d : Word) (starts : s.StartsNext d) (idle : s.eng.st = .idle) (loads : t.eng.st = .load)
      (unmarked : t.torn = false)
  | resets (turn : s.nextTurn = .reset) (unmarked : t.torn = false)

theorem step_markEffect {s t : State} (h : step s = .next t) : MarkEffect s t := by
  cases step_cases h with
  | engine turn run =>
    cases exec_engine_effect (s := { s with sched := s.sched.tail }) rfl run with
    | idle st eq | load st eq | round st eq | next st more eq | complete st last eq => exact .keeps (by simp [eq])
  | reset turn eq => exact .resets turn (by rw [eq]; rfl)
  | agent a bytes turn run => exact .writes a bytes s.host (.inl turn) run
  | hostDone turn prog eq => exact .keeps (by rw [eq])
  | access a rest i turn prog dec run =>
    obtain ⟨notSeq, notRound⟩ := decodeAccess_fmt dec
    cases exec_access_effect notSeq notRound run with
    | keeps eng torn => exact .keeps torn
    | accepts d instr idle range eq =>
      exact .accepts d ⟨a, rest, turn, prog, by rw [dec, instr]⟩ idle (by rw [eq]; rfl) (by rw [eq]; rfl)
    | stops d instr busy eq => exact .keeps (by rw [eq]; rfl)
  | poll addr mask value rest i u turn prog dec run eq =>
    obtain ⟨d, read⟩ := exec_read (decodeAccess_read dec rfl) { s with sched := s.sched.tail }
    cases read.symm.trans run
    exact .keeps (by rw [eq, pollAgain_eq]; rfl)
  | hostWrite a bytes rest turn prog run => exact .writes a bytes rest (.inr ⟨turn, rest, prog⟩) run
  | waitIrq rest turn prog eq => exact .keeps (by rw [eq]; split <;> rfl)

/-- Settles O46: what raises and what lowers the record is read off `step_markEffect`; that such a write, an accepted
START and reset do so is what their steps run. -/
theorem tornMarksMessageWrites : Obligations.TornMarksMessageWrites := by
  intro s t h
  refine ⟨fun down up => ?rises, fun a bytes k busy moves hk above below => ?marks, fun up down => ?falls,
    fun a rest d turn host dec idle range => ?accepted, fun turn => ?reset⟩
  case rises =>
    cases step_markEffect h with
    | keeps torn => simp [torn, down] at up
    | writes a bytes rest moves run =>
      rcases (storeMessage_torn run).mp up with marked | ⟨busy, inside⟩
      · exact absurd marked (by simp [down])
      · exact ⟨busy, a, bytes, moves, inside⟩
    | accepts d starts idle loads unmarked | resets turn unmarked => simp [unmarked] at up
  case marks =>
    obtain ⟨rest, stepEq⟩ := State.WritesNext.step_eq moves
    exact (storeMessage_torn (stepEq.symm.trans h)).mpr (.inr ⟨busy, k, hk, above, below⟩)
  case falls =>
    cases step_markEffect h with
    | keeps torn => simp [torn, up] at down
    | writes a bytes rest moves run =>
      exact absurd ((storeMessage_torn run).mpr (.inl up)) (Bool.eq_false_iff.mp down)
    | accepts d starts idle loads unmarked =>
      obtain ⟨a, rest, start⟩ := starts
      exact .inr ⟨idle, loads, a, rest, d, start⟩
    | resets turn unmarked => exact .inl turn
  case accepted =>
    obtain ⟨_, stepEq⟩ := State.StartsNext.step_eq ⟨a, rest, turn, host, dec⟩
    cases (stepEq.trans (execStart_accepted d idle range)).symm.trans h
    rfl
  case reset =>
    cases (step_of_nextTurn turn).symm.trans h
    rfl

/-! ### The digest of a written message (R245; log 7) -/

/-- The four words of a free digest make up the draw. -/
theorem freeQuad_append (k : Nat) :
    (freeQuad k).w3 ++ (freeQuad k).w2 ++ (freeQuad k).w1 ++ (freeQuad k).w0 = Config.freeDigest k := by
  simp only [freeQuad]
  rw [BitVec.extractLsb'_append_extractLsb'_eq_extractLsb' (start₂ := 96) (start₁ := 64) rfl,
    BitVec.extractLsb'_append_extractLsb'_eq_extractLsb' (start₂ := 64) (start₁ := 32) rfl,
    BitVec.extractLsb'_append_extractLsb'_eq_extractLsb' (start₂ := 32) (start₁ := 0) rfl]
  exact BitVec.extractLsb'_eq_self

/-- The completion of a message that was written meanwhile leaves a draw in DIGEST0..3. -/
theorem complete_of_marked {s : State} (marked : s.torn = true) (h : Quad) :
    s.complete h = { s with
      regs := { s.regs with done := true, digest := freeQuad s.draws }, eng := { s.eng with h := h, st := .idle }
      draws := s.draws + 1 } := by
  simp [State.complete, State.result, Regs.raise, marked]

/-- Settles O40: the completion of a marked operation writes the next draw. -/
theorem tornCompletionDrawsTheDigest : Obligations.TornCompletionDrawsTheDigest := fun s marked last =>
  ⟨freeQuad s.draws, freeQuad_append s.draws, by rw [exec_feed_last last, complete_of_marked marked]⟩

/-! ### Reset (R240, R241) -/

/-- STATUS reads 0 with the registers and `st` at their reset values. -/
theorem statusWord_reset : statusWord Regs.reset Engine.reset = 0 := by decide

/-- Settles O43: the step is the reset input, which replaces the registers and the engine whole and leaves the
surroundings. -/
theorem resetInputStep : Obligations.ResetInputStep := by
  intro s turns sched
  refine ⟨_, step_of_sched sched, rfl, rfl, rfl, rfl, rfl, rfl, rfl, rfl, rfl, rfl, rfl, ?status, rfl, fun _ => rfl, rfl⟩
  exact (observe_rdStatus _).trans (congrArg some statusWord_reset)

/-- Settles O44: the fields of the reset state, and its STATUS and CTRL words. -/
theorem resetStateValues : Obligations.ResetStateValues :=
  ⟨rfl, rfl, rfl, rfl, rfl, rfl, (observe_rdStatus _).trans (congrArg some statusWord_reset), rfl⟩

end Sys2Proof.Machine
end
